-- ==== Sys2Proof/Word.lean ====
section
/-! DEFINITION. The widths of what crosses the block's ports, and the two units that own a port. -/

namespace Sys2Proof

/-- A data unit: an unsigned 8-bit value (rule R9, rule R12). -/
abbrev Byte := BitVec 8

/-- A command word, one parallel 16-bit word (rule R55, rule R70). -/
abbrev CmdWord := BitVec 16

/-- A status word, one parallel 32-bit word (rule R26, rule R34). -/
abbrev StatusWord := BitVec 32

/-- The two units of the block; a command runs on the unit whose port it arrives on (rule R8, rule R71). -/
inductive UnitId where
  | enc
  | dec
  deriving DecidableEq, Repr

end Sys2Proof
end

