-- ==== Sys2Proof/Syntax.lean ====
section
/-! DEFINITION. The commands of the block: one constructor for each row of spec/opcode_table.json. -/

namespace Sys2Proof

/-- The eight commands (rule R71). An operand is a byte `D` or a one-bit option, never anything else (rule R72). -/
inductive Instr where
  /-- `ENC.BYTE c` (rule R103). -/
  | encByte (c : Byte)
  /-- `ENC.CLOSE` (rule R104). -/
  | encClose
  /-- `ENC.CONFIG s, r, a` (rule R161). -/
  | encConfig (s : Byte) (r a : Bool)
  /-- `ENC.CLEAR` (rule R162). -/
  | encClear
  /-- `DEC.BYTE c` (rule R131). -/
  | decByte (c : Byte)
  /-- `DEC.CLOSE` (rule R135). -/
  | decClose
  /-- `DEC.CONFIG s, r` (rule R163); there is no `a` on this unit. -/
  | decConfig (s : Byte) (r : Bool)
  /-- `DEC.CLEAR` (rule R164). -/
  | decClear
  deriving DecidableEq, Repr

/-- The unit whose port the command goes to (rule R71). -/
def Instr.unit : Instr → UnitId
  | .encByte _ => .enc
  | .encClose => .enc
  | .encConfig _ _ _ => .enc
  | .encClear => .enc
  | .decByte _ => .dec
  | .decClose => .dec
  | .decConfig _ _ => .dec
  | .decClear => .dec

end Sys2Proof
end

