-- ==== Sys2Proof/WellFormed.lean ====
section
/-! DEFINITION. Which command words are well formed on which unit (rule R73). The operands of `Instr` are exactly
the bytes and bits that rule R72 allows, so every `Instr` is well formed and the check is on words. -/

namespace Sys2Proof

/-- `Legal(u, w)` of rule R73: the test every word goes through first. -/
def Legal (u : UnitId) (w : CmdWord) : Bool :=
  let op := w.extractLsb' 12 4
  if op = 0x0#4 then w.extractLsb' 8 4 == 0#4
  else if op = 0x1#4 ∨ op = 0x3#4 then w.extractLsb' 0 12 == 0#12
  else if op = 0x2#4 then
    match u with
    | .enc => w.extractLsb' 10 2 == 0#2
    | .dec => w.extractLsb' 9 3 == 0#3
  else false

end Sys2Proof
end

