-- ==== Sys2Proof/Decode.lean ====
section
/-! DEFINITION. Command words to commands and back (rule R70 to rule R75, rule R87). A word has one format and one
length; the port it arrives on, not the word, names the unit. -/

namespace Sys2Proof

/-- Why a word is illegal on its unit (rule R74). All of them raise `ERR_ILLEGAL_CMD`. -/
inductive Illegal where
  /-- OP is 0x4 to 0xF. -/
  | reservedOp
  /-- A bit of RSV is set. -/
  | reservedBits
  /-- A field the command does not use is not zero (A on the DEC port among them). -/
  | unusedField
  deriving DecidableEq, Repr

/-- OP, bits [15:12] (rule R70). -/
def fieldOp (w : CmdWord) : BitVec 4 := w.extractLsb' 12 4

/-- RSV, bits [11:10] (rule R70). -/
def fieldRsv (w : CmdWord) : BitVec 2 := w.extractLsb' 10 2

/-- A, bit [9] (rule R70). -/
def fieldA (w : CmdWord) : Bool := w.getLsbD 9

/-- R, bit [8] (rule R70). -/
def fieldR (w : CmdWord) : Bool := w.getLsbD 8

/-- D, bits [7:0], unsigned, no extension and no scaling (rule R70, rule R72). -/
def fieldD (w : CmdWord) : Byte := w.extractLsb' 0 8

/-- OP 0x0, format B: only D is used. -/
def decodeByte (u : UnitId) (w : CmdWord) : Except Illegal Instr :=
  if fieldA w || fieldR w then .error .unusedField
  else match u with
    | .enc => .ok (.encByte (fieldD w))
    | .dec => .ok (.decByte (fieldD w))

/-- OP 0x1 and 0x3, format Z: no field is used. -/
def decodeBare (i : Instr) (w : CmdWord) : Except Illegal Instr :=
  if fieldA w || fieldR w || fieldD w != 0#8 then .error .unusedField
  else .ok i

/-- OP 0x2, format C: A is used on ENC only (rule R163). -/
def decodeConfig (u : UnitId) (w : CmdWord) : Except Illegal Instr :=
  match u with
  | .enc => .ok (.encConfig (fieldD w) (fieldR w) (fieldA w))
  | .dec => if fieldA w then .error .unusedField else .ok (.decConfig (fieldD w) (fieldR w))

/-- The command a word stands for on unit `u`, or why it is illegal there (rule R71, rule R73, rule R74). -/
def decode (u : UnitId) (w : CmdWord) : Except Illegal Instr :=
  if 0x4#4 ≤ fieldOp w then .error .reservedOp
  else if fieldRsv w ≠ 0#2 then .error .reservedBits
  else if fieldOp w = 0x0#4 then decodeByte u w
  else if fieldOp w = 0x1#4 then
    decodeBare (match u with | .enc => .encClose | .dec => .decClose) w
  else if fieldOp w = 0x2#4 then decodeConfig u w
  else decodeBare (match u with | .enc => .encClear | .dec => .decClear) w

/-- A word from its fields, RSV zero (rule R70). -/
def packWord (op : BitVec 4) (a r : Bool) (d : Byte) : CmdWord :=
  op ++ 0#2 ++ BitVec.ofBool a ++ BitVec.ofBool r ++ d

/-- The word of a command (the table of rule R87). -/
def encode : Instr → CmdWord
  | .encByte c => packWord 0x0 false false c
  | .encClose => packWord 0x1 false false 0
  | .encConfig s r a => packWord 0x2 a r s
  | .encClear => packWord 0x3 false false 0
  | .decByte c => packWord 0x0 false false c
  | .decClose => packWord 0x1 false false 0
  | .decConfig s r => packWord 0x2 false r s
  | .decClear => packWord 0x3 false false 0

/-- The port a table word is taken to arrive on. The spec's words do not name it, so bit 16, above the word, does:
0 is ENC, 1 is DEC (DESIGN CHOICE, log entry 2). A 16-bit table word therefore stands for the ENC port. -/
def tablePort (nbits w : Nat) : UnitId :=
  if 16 < nbits ∧ w.testBit 16 then .dec else .enc

/-- The 16 bits of a table word, bits above `nbits` zero (log entry 2). -/
def tableWord (nbits w : Nat) : CmdWord := BitVec.ofNat 16 (w % 2 ^ nbits)

/-- What the decoder reads from an instruction whose bits are `w` (log entry 2). -/
def decodeTableWord (nbits w : Nat) : Option Instr :=
  match decode (tablePort nbits w) (tableWord nbits w) with
  | .ok i => some i
  | .error _ => none

end Sys2Proof
end

