-- ==== Sys2Proof/Config.lean ====
section
/-! DEFINITION. What is fixed for this hardware (rule R4, rule R9 to rule R11). The spec leaves no parameter and
no value open ("the model takes no free parameters", 92_eei_decisions), so there is no free value here. -/

namespace Sys2Proof.Config

/-- The spec's identity string for the block (rule R4, decision D27). -/
def identity : String := "COBS-CORE-v7/ENC+DEC/S,R,A"

/-- The register number of a unit's status word on its status port (rule R26, rule R34, decision D6). -/
def statusRegister : Nat := 0

/-- Entries of the encoder's group buffer (rule R10, rule R22). -/
def bufEntries : Nat := 254

/-- Most output bytes of one ENC command (rule R10). -/
def maxEncOutput : Nat := 256

/-- Most output bytes of one DEC command (rule R10, rule R137). -/
def maxDecOutput : Nat := 1

/-- The default sentinel (rule R3, rule R9). -/
def defaultSentinel : Byte := 0x00

end Sys2Proof.Config
end

