-- ==== Sys2Proof/Machine/State.lean ====
section
/-! DEFINITION. What the machine holds: the two units' registers and buffer, their ports, and the host's side as
plain data. Reset is the state of rule R230. -/

namespace Sys2Proof.Machine

/-- The model's own faults (rule R246). None is reachable from reset. -/
inductive Fault where
  /-- `BufRead(i)` without `i < n`, or of an entry that holds no value. Raised by `EncState.bufRead`. Safe: the spec
  says a model must fault (rule R24, rule R51). -/
  | bufReadOutOfRange
  /-- `BufWrite(i, v)` without `i == n` and `i <= 253`. Raised by `EncState.bufWrite`. Safe (rule R51). -/
  | bufWriteOutOfRange
  /-- `skip_s(0xFF)` with `s = 0xFF`, which would need 0x100. Raised by `skipS`. Safe (rule R100). -/
  | skipOverflow
  /-- A sum or difference outside its 8-bit field. Raised by `succByte` and `predByte`. Safe (rule R12). -/
  | arithmeticRange
  /-- A step from a state that breaks rule R23. Raised by `step`. Safe (93_implementation_defined I16). -/
  | brokenEncInvariant
  /-- A step from a state that breaks rule R31. Raised by `step`. Safe (I16). -/
  | brokenDecInvariant
  deriving DecidableEq, Repr

/-- Why a step has no meaning: an instruction not modelled yet, or a host move the spec leaves out (rule R245). -/
inductive Refusal where
  /-- Raised by an arm of `exec` that has no meaning yet; no arm is one. Safe. -/
  | notModelled (mnemonic : String)
  /-- The host sends a command before that unit's previous one has completed (rule R234, I19). Raised by
  `State.offer`. Safe: rule R245 gives the host no such move. -/
  | portBusy
  /-- The host applies reset while a command is in progress (rule R231, I20). Raised by `State.resetMove`. Safe:
  rule R245 gives the host no such move. -/
  | resetInProgress
  /-- The host collects from a unit with no command in flight, which has no output to give (rule R245). Raised by
  `State.collect`. Safe. -/
  | nothingInFlight
  deriving DecidableEq, Repr

/-- The response codes a command can return (rule R76). Code 7 is never returned and has no name (I10). -/
inductive Response where
  | ok
  | endOfFrame
  | errUnexpectedEof
  | errIncompleteFrame
  | errBadLength
  | errIllegalCmd
  | errHalted
  deriving DecidableEq, Repr

/-- The bytes a group buffer holds, by entry number: entries rising, an unlisted entry holds no value (rule R24). -/
abbrev Memory := List Host.Cell

/-- The encoder unit (rule R22). -/
structure EncState where
  /-- `cfg_s`, the sentinel. -/
  cfgS : Byte
  /-- `cfg_r`, reduced (COBS/R) mode. -/
  cfgR : Bool
  /-- `cfg_a`, appendSentinelOnClose. -/
  cfgA : Bool
  /-- Length byte of the group being built. -/
  code : Byte
  /-- Number of data bytes in the group being built. -/
  n : BitVec 8
  /-- The group buffer `buf[0..253]`. -/
  buf : Memory
  /-- Sticky error cause; 0 means none. -/
  err : BitVec 3
  deriving DecidableEq, Repr

/-- The decoder unit (rule R30). -/
structure DecState where
  /-- `cfg_s`, the sentinel. -/
  cfgS : Byte
  /-- `cfg_r`, reduced (COBS/R) mode. -/
  cfgR : Bool
  /-- Length byte of the previous group in this frame, or the frame-start marker. -/
  code : Byte
  /-- Data bytes still owed before the next length byte. -/
  codeIndex : BitVec 8
  /-- Sticky error cause; 0 means none. -/
  err : BitVec 3
  deriving DecidableEq, Repr

/-- One completed command as the host saw it: its output bytes in order, then its response (rule R56, rule R76). -/
structure Transaction where
  out : List Byte
  resp : Response
  deriving DecidableEq, Repr

/-- One unit's command, output and response ports (rule R55). -/
structure PortState where
  /-- The accepted word whose command has not completed; at most one (rule R11, rule R59). -/
  inFlight : Option CmdWord
  /-- The commands completed since the last reset, oldest first (rule R38). -/
  log : List Transaction
  deriving DecidableEq, Repr

/-- What the host may do next (rule R245; DESIGN CHOICE, log entry 1). -/
inductive HostMove where
  /-- Put a command word on a unit's port (rule R70). -/
  | offer (u : UnitId) (w : CmdWord)
  /-- Take all output bytes and the response of the unit's command, which completes it (rule R59). -/
  | collect (u : UnitId)
  /-- Read the unit's status word (rule R165). -/
  | readStatus (u : UnitId)
  /-- The reset event (rule R231). -/
  | reset
  deriving DecidableEq, Repr

/-- What a unit's run has produced: the triple of rule R246. -/
structure RunResult where
  out : List Byte
  resp : List Response
  status : StatusWord
  deriving DecidableEq, Repr

/-- The block and its host. -/
structure State where
  enc : EncState
  dec : DecState
  encPort : PortState
  decPort : PortState
  /-- The host's coming moves, first one first (DESIGN CHOICE, log entry 1). -/
  host : List HostMove
  /-- The status words the host has read, oldest first (rule R165; DESIGN CHOICE, log entry 6). -/
  reads : List (UnitId × StatusWord)
  /-- What the runs ended by a reset event had produced, ENC and DEC, oldest first (rule R246; DESIGN CHOICE,
  log entry 6). -/
  runs : List (RunResult × RunResult)
  deriving DecidableEq, Repr

/-- ENC after reset (rule R22, rule R230). -/
def EncState.reset : EncState :=
  ⟨0x00, false, false, 0x01, 0, [], 0⟩

/-- DEC after reset (rule R30, rule R230). -/
def DecState.reset : DecState :=
  ⟨0x00, false, 0xFF, 0, 0⟩

/-- A port with no command in flight and empty streams (rule R230, rule R232). -/
def PortState.reset : PortState := ⟨none, []⟩

/-- The machine right after reset: both units as rule R230 lists them, and no host move yet. -/
def State.reset : State :=
  ⟨EncState.reset, DecState.reset, PortState.reset, PortState.reset, [], [], []⟩

end Sys2Proof.Machine
end

