-- ==== Sys2Proof/Machine/Flags.lean ====
section
/-! DEFINITION. The status-like values (rule R35): response codes, `err`, the halted state, NEEDS_MORE, and the two
status words. -/

namespace Sys2Proof.Machine

/-- The 3-bit code of a response (rule R76). -/
def Response.code : Response → BitVec 3
  | .ok => 0
  | .endOfFrame => 1
  | .errUnexpectedEof => 2
  | .errIncompleteFrame => 3
  | .errBadLength => 4
  | .errIllegalCmd => 5
  | .errHalted => 6

/-- Whether a response is an error, one of the codes 2 to 5 that `raise` records (rule R76, rule R200). -/
def Response.isError : Response → Bool
  | .ok => false
  | .endOfFrame => false
  | .errUnexpectedEof => true
  | .errIncompleteFrame => true
  | .errBadLength => true
  | .errIllegalCmd => true
  | .errHalted => false

/-- `err` after `raise E`: the first error is kept (rule R203). -/
def keepFirst (err : BitVec 3) (e : Response) : BitVec 3 :=
  if err = 0 then e.code else err

/-- A unit is halted exactly when its `err` is not 0 (rule R201). -/
def EncState.halted (e : EncState) : Bool := e.err != 0

/-- A unit is halted exactly when its `err` is not 0 (rule R201). -/
def DecState.halted (d : DecState) : Bool := d.err != 0

/-- `needsMoreData` (rule R33). -/
def DecState.needsMore (d : DecState) : Bool := d.codeIndex != 0

/-- ENC.STATUS: N, CODE, 0, ERR, 00, A, R, S from bit 31 down (rule R26). -/
def EncState.status (e : EncState) : StatusWord :=
  e.n ++ e.code ++ 0#1 ++ e.err ++ 0#2 ++ BitVec.ofBool e.cfgA ++ BitVec.ofBool e.cfgR ++ e.cfgS

/-- DEC.STATUS: CODE_INDEX, CODE, 0, ERR, 0, NEEDS_MORE, 0, R, S from bit 31 down (rule R34). -/
def DecState.status (d : DecState) : StatusWord :=
  d.codeIndex ++ d.code ++ 0#1 ++ d.err ++ 0#1 ++ BitVec.ofBool d.needsMore ++ 0#1 ++
    BitVec.ofBool d.cfgR ++ d.cfgS

/-- The output stream of a unit since reset, in emission order (rule R52). -/
def PortState.outputs (p : PortState) : List Byte := p.log.flatMap Transaction.out

/-- The response stream of a unit since reset, one per completed command (rule R38, rule R76). -/
def PortState.responses (p : PortState) : List Response := p.log.map Transaction.resp

/-- The response of the last completed command; none before the first (rule R35). -/
def PortState.lastResponse (p : PortState) : Option Response := p.log.getLast?.map Transaction.resp

/-- The output bytes of the last completed command. -/
def PortState.lastOutput (p : PortState) : List Byte :=
  match p.log.getLast? with
  | some t => t.out
  | none => []

end Sys2Proof.Machine
end

