-- ==== Sys2Proof/Machine/Operands.lean ====
section
/-! DEFINITION. The length-byte functions and the checked byte arithmetic (rule R12, rule R79 to rule R83, rule R100,
rule R134). Nothing wraps: a result outside its field is a fault. -/

namespace Sys2Proof.Machine

/-- `maxCode(s)`, the largest legal length byte (rule R79). -/
def maxCode (s : Byte) : Byte := if s = 0xFF then 0xFE else 0xFF

/-- `M(s)`, the most data bytes a group can hold (rule R80). -/
def maxData (s : Byte) : Nat := if s = 0x00 then 254 else 253

/-- `L_s(k)`, the length byte of a group of `k` data bytes, for `k <= M(s)` (rule R81). -/
def lengthByte (s : Byte) (k : Nat) : Nat :=
  if s = 0x00 ∨ k + 1 < s.toNat then k + 1 else k + 2

/-- Whether `c` is a legal length byte for sentinel `s` (rule R83). -/
def legalLength (s c : Byte) : Bool :=
  decide (0x01 ≤ c) && decide (c ≤ maxCode s) && decide (c ≠ s)

/-- `D_s(c)`, the data bytes a legal length byte declares; undefined for any other byte (rule R82, I13). -/
def dataCount (s c : Byte) : Option Nat :=
  if legalLength s c then
    some (if s = 0x00 ∨ c < s then c.toNat - 1 else c.toNat - 2)
  else none

/-- `v + 1` in an 8-bit field (rule R12). -/
def succByte (v : Byte) : Except Fault Byte :=
  if v = 0xFF then .error .arithmeticRange else .ok (v + 1)

/-- `v - 1` in an 8-bit field (rule R12). -/
def predByte (v : Byte) : Except Fault Byte :=
  if v = 0x00 then .error .arithmeticRange else .ok (v - 1)

/-- `skip_s(v)` (rule R100). -/
def skipS (s v : Byte) : Except Fault Byte :=
  if v = s then (if v = 0xFF then .error .skipOverflow else .ok (v + 1)) else .ok v

/-- The decoder's count of the data bytes a length byte `c` declares, as rule R131 computes it. -/
def declaredCount (s c : Byte) : Except Fault Byte := do
  let k ← predByte c
  if s ≠ 0x00 ∧ s < c then predByte k else .ok k

end Sys2Proof.Machine
end

