-- ==== Sys2Proof/Machine/Ops.lean ====
section
/-! DEFINITION. The named operations: the group buffer, the helpers of the two units, raising an error and leaving
the halted state, and what a completed command leaves on its port. -/

namespace Sys2Proof.Machine

/-! ### The group buffer (rule R51) -/

/-- What entry `i` holds; nothing if it is not listed (rule R24). -/
def Memory.read : Memory → Nat → Option Byte
  | [], _ => none
  | c :: m, i => if c.1 = i then some c.2 else Memory.read m i

/-- Entry `i` set to `v`, entries kept rising. -/
def Memory.write : Memory → Nat → Byte → Memory
  | [], i, v => [(i, v)]
  | c :: m, i, v =>
    if i < c.1 then (i, v) :: c :: m
    else if i = c.1 then (i, v) :: m
    else c :: Memory.write m i v

/-- `BufRead(i)` (rule R51). -/
def EncState.bufRead (e : EncState) (i : Nat) : Except Fault Byte :=
  if i < e.n.toNat then
    match e.buf.read i with
    | some v => .ok v
    | none => .error .bufReadOutOfRange
  else .error .bufReadOutOfRange

/-- `BufWrite(i, v)` (rule R51). -/
def EncState.bufWrite (e : EncState) (i : Nat) (v : Byte) : Except Fault EncState :=
  if i < Config.bufEntries ∧ i = e.n.toNat then .ok { e with buf := e.buf.write i v }
  else .error .bufWriteOutOfRange

/-- `BufRead(0)` to `BufRead(k - 1)`, in order. -/
def EncState.bufPrefix (e : EncState) : Nat → Except Fault (List Byte)
  | 0 => .ok []
  | k + 1 => do
    let front ← e.bufPrefix k
    let b ← e.bufRead k
    .ok (front ++ [b])

/-! ### What a command leaves (rule R14) -/

/-- A unit's state, output bytes and response at the end of a command: one step (rule R56). -/
structure Done (σ : Type) where
  st : σ
  out : List Byte
  resp : Response
  deriving DecidableEq, Repr

/-- One outcome after another: the first stop is the whole's. -/
def andThen {α β : Type} (o : Host.Outcome α Fault Refusal) (f : α → Host.Outcome β Fault Refusal) :
    Host.Outcome β Fault Refusal :=
  match o with
  | .next a => f a
  | .fault x => .fault x
  | .refused x => .refused x

/-- The command's output bytes and response join the port's log, in that order (rule R52, rule R56). -/
def PortState.record (p : PortState) (out : List Byte) (r : Response) : PortState :=
  { p with log := p.log ++ [⟨out, r⟩] }

/-- An ENC command's end: its effect, output and response become the machine's, or its fault stops it. -/
def finishEnc (s : State) : Except Fault (Done EncState) → Host.Outcome State Fault Refusal
  | .ok d => .next { s with enc := d.st, encPort := s.encPort.record d.out d.resp }
  | .error f => .fault f

/-- A DEC command's end. -/
def finishDec (s : State) : Except Fault (Done DecState) → Host.Outcome State Fault Refusal
  | .ok d => .next { s with dec := d.st, decPort := s.decPort.record d.out d.resp }
  | .error f => .fault f

/-! ### Raising an error, and refusing while halted -/

/-- `raise E` on ENC: the response is `E`, the first error is kept, nothing else changes (rule R203). -/
def EncState.raise (e : EncState) (r : Response) : Done EncState :=
  ⟨{ e with err := keepFirst e.err r }, [], r⟩

/-- `raise E` on DEC (rule R203). -/
def DecState.raise (d : DecState) (r : Response) : Done DecState :=
  ⟨{ d with err := keepFirst d.err r }, [], r⟩

/-- BYTE and CLOSE on ENC: a halted unit answers ERR_HALTED and nothing changes (rule R160, rule R209). -/
def EncState.unlessHalted (e : EncState) (run : Except Fault (Done EncState)) : Except Fault (Done EncState) :=
  if e.halted then .ok ⟨e, [], .errHalted⟩ else run

/-- BYTE and CLOSE on DEC: a halted unit answers ERR_HALTED and nothing changes (rule R160, rule R209). -/
def DecState.unlessHalted (d : DecState) (run : Except Fault (Done DecState)) : Except Fault (Done DecState) :=
  if d.halted then .ok ⟨d, [], .errHalted⟩ else run

/-! ### Encoder helpers -/

/-- `InitGroup()` (rule R101); every buffer entry then holds no value (rule R24). -/
def EncState.initGroup (e : EncState) : Except Fault EncState := do
  let c ← skipS e.cfgS 0x01
  .ok { e with n := 0, code := c, buf := [] }

/-- The bytes of the group being built: its length byte, then its data bytes (rule R52). -/
def EncState.groupBytes (e : EncState) : Except Fault (List Byte) := do
  let ds ← e.bufPrefix e.n.toNat
  .ok (e.code :: ds)

/-- `FlushGroup()`: the new state and the bytes emitted (rule R102). -/
def EncState.flushGroup (e : EncState) : Except Fault (EncState × List Byte) := do
  let bs ← e.groupBytes
  let e' ← e.initGroup
  .ok (e', bs)

/-- Step 1 of `ENC.BYTE`: a full group is flushed first (rule R103). -/
def EncState.flushIfFull (e : EncState) : Except Fault (EncState × List Byte) :=
  if e.code = maxCode e.cfgS then e.flushGroup else .ok (e, [])

/-- Step 3 of `ENC.BYTE`: append a byte and form the next length byte (rule R103). -/
def EncState.append (e : EncState) (c : Byte) : Except Fault EncState := do
  let e' ← e.bufWrite e.n.toNat c
  let n ← succByte e.n
  let k ← succByte e.code
  let code ← skipS e.cfgS k
  .ok { e' with n := n, code := code }

/-- Whether the COBS/R shrink applies to the final group (rule R85, rule R104). -/
def EncState.shrinks (e : EncState) : Except Fault Bool :=
  if e.cfgR = true ∧ 1 ≤ e.n.toNat then do
    let last ← e.bufRead (e.n.toNat - 1)
    .ok (decide (e.code < last))
  else .ok false

/-- The bytes of the final group: shrunk, its last data byte replaces its length byte (rule R104). -/
def EncState.finalGroupBytes (e : EncState) : Except Fault (List Byte) := do
  if ← e.shrinks then
    let last ← e.bufRead (e.n.toNat - 1)
    let ds ← e.bufPrefix (e.n.toNat - 1)
    .ok (last :: ds)
  else e.groupBytes

/-- The literal terminator after the final group, when `cfg_a` asks for it (rule R86, rule R104). -/
def EncState.terminator (e : EncState) : List Byte := if e.cfgA then [e.cfgS] else []

/-! ### Decoder helpers -/

/-- `InitFrame()` (rule R130). -/
def DecState.initFrame (d : DecState) : DecState :=
  { d with code := maxCode d.cfgS, codeIndex := 0 }

/-- The COBS/R flush at the end of a frame: the pending byte `code` is emitted and nothing is owed any more
(rule R132, rule R135). -/
def DecState.flushPending (d : DecState) : DecState × List Byte :=
  if d.cfgR = true ∧ 0 < d.codeIndex.toNat then ({ d with codeIndex := 0 }, [d.code]) else (d, [])

/-- The sentinel rebuilt before a group that follows a group that was not full (rule R84, rule R134). -/
def DecState.rebuilt (d : DecState) : List Byte :=
  if d.code ≠ maxCode d.cfgS then [d.cfgS] else []

end Sys2Proof.Machine
end

