-- ==== Sys2Proof/Machine/Decoder.lean ====
section
/-! DEFINITION. The meanings of the DEC commands (rule R131 to rule R135, rule R163, rule R164). -/

namespace Sys2Proof.Machine

/-- Case 1 of `DEC.BYTE`, the terminator (rule R132). -/
def DecState.terminatorCase (d : DecState) : Done DecState :=
  let (d1, out) := d.flushPending
  if d1.codeIndex ≠ 0 then d1.raise .errUnexpectedEof
  else ⟨{ d1 with code := maxCode d1.cfgS }, out, .endOfFrame⟩

/-- Case 2 of `DEC.BYTE`, a data byte (rule R133). -/
def DecState.dataCase (d : DecState) (c : Byte) : Except Fault (Done DecState) := do
  let k ← predByte d.codeIndex
  .ok ⟨{ d with codeIndex := k }, [c], .ok⟩

/-- Case 3 of `DEC.BYTE`, a length byte (rule R134). -/
def DecState.lengthCase (d : DecState) (c : Byte) : Except Fault (Done DecState) :=
  if d.cfgS ≠ 0x00 ∧ c = 0x00 then .ok (d.raise .errBadLength)
  else do
    let k ← declaredCount d.cfgS c
    .ok ⟨{ d with code := c, codeIndex := k }, d.rebuilt, .ok⟩

/-- `DEC.BYTE c` once dispatched (rule R131). -/
def DecState.byte (d : DecState) (c : Byte) : Except Fault (Done DecState) :=
  if c = d.cfgS then .ok d.terminatorCase
  else if 0 < d.codeIndex.toNat then d.dataCase c
  else d.lengthCase c

/-- `DEC.CLOSE` once dispatched (rule R135). -/
def DecState.close (d : DecState) : Done DecState :=
  let (d1, out) := d.flushPending
  if d1.codeIndex ≠ 0 then d1.raise .errIncompleteFrame
  else ⟨d1.initFrame, out, .ok⟩

/-- `DEC.CONFIG s, r` (rule R163). -/
def DecState.config (d : DecState) (s : Byte) (r : Bool) : Done DecState :=
  ⟨{ d with cfgS := s, cfgR := r, err := 0 }.initFrame, [], .ok⟩

/-- `DEC.CLEAR` (rule R164). -/
def DecState.clear (d : DecState) : Done DecState :=
  ⟨{ d with err := 0 }.initFrame, [], .ok⟩

/-- `DEC.BYTE c` (rule R131, dispatched by rule R160). -/
def execDecByte (c : Byte) (s : State) : Host.Outcome State Fault Refusal :=
  finishDec s (s.dec.unlessHalted (s.dec.byte c))

/-- `DEC.CLOSE` (rule R135, dispatched by rule R160). -/
def execDecClose (s : State) : Host.Outcome State Fault Refusal :=
  finishDec s (s.dec.unlessHalted (.ok s.dec.close))

/-- `DEC.CONFIG s, r`: runs whether or not the unit is halted (rule R160, rule R163). -/
def execDecConfig (c : Byte) (r : Bool) (s : State) : Host.Outcome State Fault Refusal :=
  finishDec s (.ok (s.dec.config c r))

/-- `DEC.CLEAR`: runs whether or not the unit is halted (rule R160, rule R164). -/
def execDecClear (s : State) : Host.Outcome State Fault Refusal :=
  finishDec s (.ok s.dec.clear)

end Sys2Proof.Machine
end

