-- ==== Sys2Proof/Machine/Encoder.lean ====
section
/-! DEFINITION. The meanings of the ENC commands (rule R103, rule R104, rule R161, rule R162). -/

namespace Sys2Proof.Machine

/-- `ENC.BYTE c` once dispatched (rule R103). -/
def EncState.byte (e : EncState) (c : Byte) : Except Fault (Done EncState) := do
  let (e1, out1) ← e.flushIfFull
  if c = e1.cfgS then
    let (e2, out2) ← e1.flushGroup
    .ok ⟨e2, out1 ++ out2, .ok⟩
  else
    let e2 ← e1.append c
    .ok ⟨e2, out1, .ok⟩

/-- `ENC.CLOSE` once dispatched (rule R104). -/
def EncState.close (e : EncState) : Except Fault (Done EncState) := do
  let group ← e.finalGroupBytes
  let e' ← e.initGroup
  .ok ⟨e', group ++ e'.terminator, .ok⟩

/-- `ENC.CONFIG s, r, a` (rule R161). -/
def EncState.config (e : EncState) (s : Byte) (r a : Bool) : Except Fault (Done EncState) := do
  let e' ← { e with cfgS := s, cfgR := r, cfgA := a, err := 0 }.initGroup
  .ok ⟨e', [], .ok⟩

/-- `ENC.CLEAR` (rule R162). -/
def EncState.clear (e : EncState) : Except Fault (Done EncState) := do
  let e' ← { e with err := 0 }.initGroup
  .ok ⟨e', [], .ok⟩

/-- `ENC.BYTE c` (rule R103, dispatched by rule R160). -/
def execEncByte (c : Byte) (s : State) : Host.Outcome State Fault Refusal :=
  finishEnc s (s.enc.unlessHalted (s.enc.byte c))

/-- `ENC.CLOSE` (rule R104, dispatched by rule R160). -/
def execEncClose (s : State) : Host.Outcome State Fault Refusal :=
  finishEnc s (s.enc.unlessHalted s.enc.close)

/-- `ENC.CONFIG s, r, a`: runs whether or not the unit is halted (rule R160, rule R161). -/
def execEncConfig (c : Byte) (r a : Bool) (s : State) : Host.Outcome State Fault Refusal :=
  finishEnc s (s.enc.config c r a)

/-- `ENC.CLEAR`: runs whether or not the unit is halted (rule R160, rule R162). -/
def execEncClear (s : State) : Host.Outcome State Fault Refusal :=
  finishEnc s s.enc.clear

end Sys2Proof.Machine
end

