-- ==== Sys2Proof/Machine/Dispatch.lean ====
section
/-! DEFINITION. One arm per command: its meaning (rule R160 and the rule of each command). -/

namespace Sys2Proof.Machine

def exec (i : Instr) (s : State) : Host.Outcome State Fault Refusal :=
  match i with
  | .encByte c => Sys2Proof.Machine.execEncByte c s
  | .encClose => Sys2Proof.Machine.execEncClose s
  | .encConfig c r a => Sys2Proof.Machine.execEncConfig c r a s
  | .encClear => Sys2Proof.Machine.execEncClear s
  | .decByte c => Sys2Proof.Machine.execDecByte c s
  | .decClose => Sys2Proof.Machine.execDecClose s
  | .decConfig c r => Sys2Proof.Machine.execDecConfig c r s
  | .decClear => Sys2Proof.Machine.execDecClear s

end Sys2Proof.Machine
end

