-- ==== Sys2Proof/Machine/Invariant.lean ====
section
/-! DEFINITION. The invariants the spec gives the two units (rule R23, rule R24, rule R31). A step from a state that
breaks one is a fault (I16). -/

namespace Sys2Proof.Machine

/-- Entries strictly rising, none outside `buf[0..253]`: the one canonical form of a group buffer. -/
abbrev Memory.wf (m : Memory) : Prop :=
  m.Pairwise (fun x y => x.1 < y.1) ∧ ∀ c ∈ m, c.1 < Config.bufEntries

/-- Rule R23, with rule R24: exactly the entries `0..n-1` hold a value. -/
abbrev EncState.Inv (e : EncState) : Prop :=
  e.code.toNat = lengthByte e.cfgS e.n.toNat ∧
  e.n.toNat ≤ maxData e.cfgS ∧
  (e.n.toNat = maxData e.cfgS ↔ e.code = maxCode e.cfgS) ∧
  e.buf.map Prod.fst = List.range e.n.toNat ∧
  ∀ c ∈ e.buf, c.2 ≠ e.cfgS

/-- Rule R31.2: while data bytes are owed, `code` is a legal length byte that declares at least as many. -/
abbrev DecState.owedByCode (d : DecState) : Bool :=
  match dataCount d.cfgS d.code with
  | some k => decide (d.codeIndex.toNat ≤ k)
  | none => false

/-- Rule R31. -/
abbrev DecState.Inv (d : DecState) : Prop :=
  d.code ≠ d.cfgS ∧
  (d.codeIndex ≠ 0 → d.owedByCode = true) ∧
  d.codeIndex.toNat ≤ 254

/-- Both units' invariants. -/
abbrev State.Inv (s : State) : Prop := s.enc.Inv ∧ s.dec.Inv

end Sys2Proof.Machine
end

