-- ==== Sys2Proof/Machine/Ports.lean ====
section
/-! DEFINITION. The ports and the host's moves (rule R55, rule R59, rule R160, rule R165, rule R231, rule R245). A
command word lies in flight on its unit's port until the host collects its output and response; that is the one
step in which the command takes effect (rule R56; DESIGN CHOICE, log entry 3). -/

namespace Sys2Proof.Machine

/-- The word in flight on a unit's port. -/
def State.inFlight (s : State) : UnitId → Option CmdWord
  | .enc => s.encPort.inFlight
  | .dec => s.decPort.inFlight

/-- The unit's port holding `w` in flight, or nothing. -/
def State.setInFlight (s : State) (u : UnitId) (w : Option CmdWord) : State :=
  match u with
  | .enc => { s with encPort := { s.encPort with inFlight := w } }
  | .dec => { s with decPort := { s.decPort with inFlight := w } }

/-- The unit's status word (rule R26, rule R34, rule R165). -/
def State.status (s : State) : UnitId → StatusWord
  | .enc => s.enc.status
  | .dec => s.dec.status

/-- An illegal word raises `ERR_ILLEGAL_CMD` on the unit that received it (rule R74, rule R160, rule R205). -/
def illegalCommand (u : UnitId) (s : State) : Host.Outcome State Fault Refusal :=
  match u with
  | .enc => finishEnc s (.ok (s.enc.raise .errIllegalCmd))
  | .dec => finishDec s (.ok (s.dec.raise .errIllegalCmd))

/-- `Dispatch(u, w)` (rule R160): legality first, then the command's meaning. -/
def dispatchWord (u : UnitId) (w : CmdWord) (s : State) : Host.Outcome State Fault Refusal :=
  match decode u w with
  | .ok i => exec i s
  | .error _ => illegalCommand u s

/-- The host puts a word on a unit's command port; the port must be free (rule R234; DEDUCED, log entry 4). -/
def State.offer (s : State) (u : UnitId) (w : CmdWord) : Host.Outcome State Fault Refusal :=
  match s.inFlight u with
  | some _ => .refused .portBusy
  | none => .next (s.setInFlight u (some w))

/-- The host takes the output and the response of the unit's command, which completes (rule R59). -/
def State.collect (s : State) (u : UnitId) : Host.Outcome State Fault Refusal :=
  match s.inFlight u with
  | some w => dispatchWord u w (s.setInFlight u none)
  | none => .refused .nothingInFlight

/-- The host reads a status word: no side effect on the block (rule R57, rule R165). -/
def State.readStatus (s : State) (u : UnitId) : State :=
  { s with reads := s.reads ++ [(u, s.status u)] }

/-- What ENC has produced in this run (rule R246). -/
def State.encRun (s : State) : RunResult := ⟨s.encPort.outputs, s.encPort.responses, s.enc.status⟩

/-- What DEC has produced in this run (rule R246). -/
def State.decRun (s : State) : RunResult := ⟨s.decPort.outputs, s.decPort.responses, s.dec.status⟩

/-- The reset event: both units at once, the run's result kept by the host (rule R230, rule R237; DEDUCED, log
entry 6). -/
def State.resetBlock (s : State) : State :=
  { State.reset with
    host := s.host
    reads := s.reads
    runs := s.runs ++ [(s.encRun, s.decRun)] }

/-- The host applies reset, between commands only, of both units (rule R231; DEDUCED, log entry 11). -/
def State.resetMove (s : State) : Host.Outcome State Fault Refusal :=
  if s.encPort.inFlight = none ∧ s.decPort.inFlight = none then .next s.resetBlock
  else .refused .resetInProgress

/-- One host move (rule R245). -/
def perform (m : HostMove) (s : State) : Host.Outcome State Fault Refusal :=
  match m with
  | .offer u w => s.offer u w
  | .collect u => s.collect u
  | .readStatus u => .next (s.readStatus u)
  | .reset => s.resetMove

/-- One step of the block with its host: the host's next move, or nothing happens (rule R220; DESIGN CHOICE, log entries 5
and 8). -/
def stepCore (s : State) : Host.Outcome State Fault Refusal :=
  if ¬ s.enc.Inv then .fault .brokenEncInvariant
  else if ¬ s.dec.Inv then .fault .brokenDecInvariant
  else
    match s.host with
    | [] => .next s
    | m :: rest => perform m { s with host := rest }

end Sys2Proof.Machine
end

