-- ==== Sys2Proof/Machine/Step.lean ====
section
/-! DEFINITION. The step, and where the host's table words are placed. -/

namespace Sys2Proof.Machine

/-- One step: a function of the state. -/
def step (s : State) : Host.Outcome State Fault Refusal := stepCore s

/-- The word in flight on its port, with the host about to collect: the very next step runs it (DESIGN CHOICE, log entry 2). -/
def State.withFetchWord (s : State) (nbits w : Nat) : State :=
  let u := tablePort nbits w
  { s.setInFlight u (some (tableWord nbits w)) with host := .collect u :: s.host }

end Sys2Proof.Machine
end

