-- ==== Sys2Proof/Machine/Assembler.lean ====
section
/-! DEFINITION. The assembler syntax (rule R87, rule R88) and the spelling of the pseudo-instructions (rule R89): one line
of text to a command or a pseudo-instruction. Text is a list of characters; a character's byte is its ASCII code
(93_implementation_defined X1; PRESUMED, log entry 13). What the rules leave open of the spelling is a DESIGN CHOICE, named
point by point in log entry 13. -/

namespace Sys2Proof.Machine.Asm

/-- One line of assembly text. -/
inductive Line where
  /-- Nothing but white space and a comment. -/
  | blank
  /-- A command (rule R87). -/
  | command (i : Instr)
  /-- `ENC.WRITE x` (rule R89). -/
  | encWrite (x : List Byte)
  /-- `ENC.FRAME x` (rule R89). -/
  | encFrame (x : List Byte)
  /-- `DEC.WRITE w` (rule R89). -/
  | decWrite (w : List Byte)
  /-- `DEC.FRAME w` (rule R89). -/
  | decFrame (w : List Byte)
  deriving DecidableEq, Repr

/-- A value that fits a byte. -/
def byteOf (v : Nat) : Option Byte := if v < 256 then some (BitVec.ofNat 8 v) else none

/-- The byte of a quoted character: its ASCII code. A character above 0x7F has none, and is refused (rule R88; DEDUCED, log
entry 13). -/
def asciiByte (c : Char) : Option Byte := if c.toNat < 128 then byteOf c.toNat else none

/-- The value of a decimal digit. -/
def decDigit (c : Char) : Option Nat :=
  if '0' ≤ c ∧ c ≤ '9' then some (c.toNat - '0'.toNat) else none

/-- The value of a hexadecimal digit. -/
def hexDigit (c : Char) : Option Nat :=
  if 'a' ≤ c ∧ c ≤ 'f' then some (c.toNat - 'a'.toNat + 10)
  else if 'A' ≤ c ∧ c ≤ 'F' then some (c.toNat - 'A'.toNat + 10)
  else decDigit c

/-- The number a list of digits writes, most significant first, after `acc`. -/
def number (base : Nat) (digit : Char → Option Nat) : Nat → List Char → Option Nat
  | acc, [] => some acc
  | acc, c :: cs =>
    match digit c with
    | some d => number base digit (acc * base + d) cs
    | none => none

/-- White space off the front. -/
def trimLeft : List Char → List Char
  | [] => []
  | c :: cs => if c = ' ' ∨ c = '\t' then trimLeft cs else c :: cs

/-- White space off both ends. -/
def trim (cs : List Char) : List Char := (trimLeft (trimLeft cs).reverse).reverse

/-- A byte literal: `0x41`, `65` or a quoted character (rule R88). Any ASCII character may stand between the quotes, the
apostrophe among them (DESIGN CHOICE, log entry 13). -/
def parseByte : List Char → Option Byte
  | [] => none
  | ['\'', c, '\''] => asciiByte c
  | '0' :: 'x' :: d :: ds => (number 16 hexDigit 0 (d :: ds)).bind byteOf
  | c :: cs => (number 10 decDigit 0 (c :: cs)).bind byteOf

/-- A text put before the first of the texts that follow it. -/
def prepend (front : List Char) : List (List Char) → List (List Char)
  | [] => [front]
  | q :: qs => (front ++ q) :: qs

/-- A text split at its commas. A quoted character, three characters with apostrophes at both ends, is passed over as a
whole, so its comma or apostrophe separates nothing (rule R87; DESIGN CHOICE, log entry 13). -/
def splitCommas : List Char → List (List Char)
  | [] => [[]]
  | '\'' :: c :: '\'' :: cs => prepend ['\'', c, '\''] (splitCommas cs)
  | c :: cs => if c = ',' then [] :: splitCommas cs else prepend [c] (splitCommas cs)

mutual

/-- The line without its comment, from outside a string: `;` starts a comment, but for a quoted one, three characters with
apostrophes at both ends (rule R87; DESIGN CHOICE, log entry 13). -/
def stripComment : List Char → List Char
  | [] => []
  | '\'' :: c :: '\'' :: cs => '\'' :: c :: '\'' :: stripComment cs
  | c :: cs => if c = ';' then [] else if c = '"' then c :: stripInString cs else c :: stripComment cs

/-- The line without its comment, from inside a string, which ends at the next `"` (DESIGN CHOICE, log entry 13). -/
def stripInString : List Char → List Char
  | [] => []
  | c :: cs => if c = '"' then c :: stripComment cs else c :: stripInString cs

end

/-- Every entry read, or none if one cannot be. -/
def parseAll {α : Type} (f : List Char → Option α) : List (List Char) → Option (List α)
  | [] => some []
  | q :: qs =>
    match f q, parseAll f qs with
    | some v, some vs => some (v :: vs)
    | _, _ => none

/-- The inside of a quoted string: ASCII characters and `\xHH` escapes, up to the closing quote (rule R88). A backslash
that does not begin `\xHH` is refused; a quote or a backslash is written as its escape (DESIGN CHOICE, log entry 13). -/
def parseString : List Char → Option (List Byte)
  | [] => none
  | ['"'] => some []
  | '\\' :: 'x' :: h :: l :: cs =>
    match (number 16 hexDigit 0 [h, l]).bind byteOf, parseString cs with
    | some v, some vs => some (v :: vs)
    | _, _ => none
  | c :: cs =>
    if c = '"' ∨ c = '\\' then none
    else
      match asciiByte c, parseString cs with
      | some v, some vs => some (v :: vs)
      | _, _ => none

/-- A byte sequence: `[0x41, 0x42]` or a quoted string (rule R88). -/
def parseBytes : List Char → Option (List Byte)
  | '"' :: cs => parseString cs
  | '[' :: cs =>
    match cs.reverse with
    | ']' :: inner =>
      let body := inner.reverse
      if trim body = [] then some [] else parseAll (fun q => parseByte (trim q)) (splitCommas body)
    | _ => none
  | _ => none

/-- An option operand `<name>=0` or `<name>=1` (rule R87). -/
def parseOption (name : Char) : List Char → Option Bool
  | [c, '=', v] => if c = name then (if v = '0' then some false else if v = '1' then some true else none) else none
  | _ => none

/-- The operands of `ENC.CONFIG`: an omitted `r=` or `a=` is 0 (rule R87). -/
def parseEncConfig : List (List Char) → Option Instr
  | [s] => (parseByte s).map fun s => .encConfig s false false
  | [s, o] =>
    match parseByte s, parseOption 'r' o, parseOption 'a' o with
    | some s, some r, _ => some (.encConfig s r false)
    | some s, none, some a => some (.encConfig s false a)
    | _, _, _ => none
  | [s, o, p] =>
    match parseByte s, parseOption 'r' o, parseOption 'a' p with
    | some s, some r, some a => some (.encConfig s r a)
    | _, _, _ => none
  | _ => none

/-- The operands of `DEC.CONFIG`: an omitted `r=` is 0 (rule R87). -/
def parseDecConfig : List (List Char) → Option Instr
  | [s] => (parseByte s).map fun s => .decConfig s false
  | [s, o] =>
    match parseByte s, parseOption 'r' o with
    | some s, some r => some (.decConfig s r)
    | _, _ => none
  | _ => none

/-- A command without operands. -/
def bare (rest : List Char) (l : Line) : Option Line := if trim rest = [] then some l else none

/-- A mnemonic and the text after it (rule R87, rule R89). -/
def parseCommand (mnemonic rest : List Char) : Option Line :=
  let ops := (splitCommas rest).map trim
  if mnemonic = "ENC.BYTE".toList then (parseByte (trim rest)).map fun b => .command (.encByte b)
  else if mnemonic = "ENC.CLOSE".toList then bare rest (.command .encClose)
  else if mnemonic = "ENC.CONFIG".toList then (parseEncConfig ops).map Line.command
  else if mnemonic = "ENC.CLEAR".toList then bare rest (.command .encClear)
  else if mnemonic = "DEC.BYTE".toList then (parseByte (trim rest)).map fun b => .command (.decByte b)
  else if mnemonic = "DEC.CLOSE".toList then bare rest (.command .decClose)
  else if mnemonic = "DEC.CONFIG".toList then (parseDecConfig ops).map Line.command
  else if mnemonic = "DEC.CLEAR".toList then bare rest (.command .decClear)
  else if mnemonic = "ENC.WRITE".toList then (parseBytes (trim rest)).map Line.encWrite
  else if mnemonic = "ENC.FRAME".toList then (parseBytes (trim rest)).map Line.encFrame
  else if mnemonic = "DEC.WRITE".toList then (parseBytes (trim rest)).map Line.decWrite
  else if mnemonic = "DEC.FRAME".toList then (parseBytes (trim rest)).map Line.decFrame
  else none

/-- One line of text; nothing if it is not in the syntax (rule R87 to rule R89). -/
def parseLine (cs : List Char) : Option Line :=
  let body := trim (stripComment cs)
  if body = [] then some .blank
  else
    let mnemonic := body.takeWhile fun c => c != ' ' && c != '\t'
    parseCommand mnemonic (body.drop mnemonic.length)

/-- The port and the word a command line stands for (the table of rule R87). -/
def assemble (cs : List Char) : Option (UnitId × CmdWord) :=
  match parseLine cs with
  | some (.command i) => some (i.unit, encode i)
  | _ => none

end Sys2Proof.Machine.Asm
end

