-- ==== Sys2Proof/Machine/Frames.lean ====
section
/-! DEFINITION. What the host builds from commands: the pseudo-instructions (rule R89), whole frames (rule R180, rule
R182) and the two units chained (rule R183). They are sequences of commands, not commands (DESIGN CHOICE, log entry 14). -/

namespace Sys2Proof.Machine

/-- What a pseudo-instruction returns: the machine after it, the bytes counted as consumed, and the response. -/
structure WriteResult where
  st : State
  count : Nat
  resp : Option Response
  deriving DecidableEq, Repr

/-- `ENC.WRITE x`, with `count` bytes consumed so far (rule R89). -/
def encWriteFrom (count : Nat) : List Byte → State → Host.Outcome WriteResult Fault Refusal
  | [], s => .next ⟨s, count, some .ok⟩
  | b :: x, s =>
    andThen (exec (.encByte b) s) fun t =>
      if t.encPort.lastResponse = some .ok then encWriteFrom (count + 1) x t
      else .next ⟨t, count, t.encPort.lastResponse⟩

/-- `ENC.WRITE x` (rule R89). -/
def encWrite (x : List Byte) (s : State) : Host.Outcome WriteResult Fault Refusal := encWriteFrom 0 x s

/-- `ENC.FRAME x`: no CLOSE after a failure (rule R89). -/
def encFrame (x : List Byte) (s : State) : Host.Outcome WriteResult Fault Refusal :=
  andThen (encWrite x s) fun w =>
    if w.resp = some .ok then
      andThen (exec .encClose w.st) fun t => .next ⟨t, w.count, t.encPort.lastResponse⟩
    else .next w

/-- `DEC.WRITE w`, with `count` bytes consumed so far: a terminator counts, a byte that raises does not (rule R89). -/
def decWriteFrom (count : Nat) : List Byte → State → Host.Outcome WriteResult Fault Refusal
  | [], s => .next ⟨s, count, some .ok⟩
  | b :: w, s =>
    andThen (exec (.decByte b) s) fun t =>
      if t.decPort.lastResponse = some .ok then decWriteFrom (count + 1) w t
      else if t.decPort.lastResponse = some .endOfFrame then .next ⟨t, count + 1, some .endOfFrame⟩
      else .next ⟨t, count, t.decPort.lastResponse⟩

/-- `DEC.WRITE w` (rule R89). -/
def decWrite (w : List Byte) (s : State) : Host.Outcome WriteResult Fault Refusal := decWriteFrom 0 w s

/-- `DEC.FRAME w`: stops at the first terminator and closes, which then does nothing (rule R89). -/
def decFrame (w : List Byte) (s : State) : Host.Outcome WriteResult Fault Refusal :=
  andThen (decWrite w s) fun r =>
    if r.resp = some .endOfFrame then
      andThen (exec .decClose r.st) fun t => .next ⟨t, r.count, some .ok⟩
    else if r.resp = some .ok then
      andThen (exec .decClose r.st) fun t => .next ⟨t, r.count, t.decPort.lastResponse⟩
    else .next r

/-- A whole frame's result: the machine after it, the bytes the unit emitted for it, and the last response. -/
structure FrameResult where
  st : State
  bytes : List Byte
  resp : Option Response
  deriving DecidableEq, Repr

/-- The bytes a port has emitted since `p`. -/
def PortState.emittedSince (p q : PortState) : List Byte :=
  (q.log.drop p.log.length).flatMap Transaction.out

/-- `EncodeFrame(x, s, r, a)` run on the machine: `ENC.CONFIG`, then `ENC.FRAME x` (rule R180). -/
def encodeFrame (x : List Byte) (s : Byte) (r a : Bool) (st : State) : Host.Outcome FrameResult Fault Refusal :=
  andThen (exec (.encConfig s r a) st) fun t =>
    andThen (encFrame x t) fun w => .next ⟨w.st, st.encPort.emittedSince w.st.encPort, w.resp⟩

/-- `DecodeFrame(w, s, r)` run on the machine: `DEC.CONFIG`, then `DEC.FRAME w` (rule R182). -/
def decodeFrame (w : List Byte) (s : Byte) (r : Bool) (st : State) : Host.Outcome FrameResult Fault Refusal :=
  andThen (exec (.decConfig s r) st) fun t =>
    andThen (decFrame w t) fun v => .next ⟨v.st, st.decPort.emittedSince v.st.decPort, v.resp⟩

/-- The host issues `DEC.BYTE b` for every byte of `w`, whatever the responses (rule R183). -/
def feedDec : List Byte → State → Host.Outcome State Fault Refusal
  | [], s => .next s
  | b :: w, s => andThen (exec (.decByte b) s) (feedDec w)

/-- Commands in order, whatever the responses. -/
def issueAll : List Instr → State → Host.Outcome State Fault Refusal
  | [], s => .next s
  | i :: is, s => andThen (exec i s) (issueAll is)

/-- Lock-step: after each ENC command its output bytes are fed to DEC at once (rule R183). -/
def loopLockStep : List Instr → State → Host.Outcome State Fault Refusal
  | [], s => .next s
  | i :: is, s =>
    andThen (exec i s) fun t => andThen (feedDec t.encPort.lastOutput t) (loopLockStep is)

/-- ENC to the end first, then DEC fed with all it emitted (rule R183). -/
def loopEncFirst (is : List Instr) (s : State) : Host.Outcome State Fault Refusal :=
  andThen (issueAll is s) fun t => feedDec (s.encPort.emittedSince t.encPort) t

/-- The ENC commands of one frame: every payload byte, then CLOSE (rule R235). -/
def encFrameCommands (x : List Byte) : List Instr := x.map Instr.encByte ++ [.encClose]

/-- The host's moves that send a command and collect its outcome (rule R59, rule R245). -/
def commandMoves (i : Instr) (w : CmdWord) : List HostMove := [.offer i.unit w, .collect i.unit]

end Sys2Proof.Machine
end

