-- ==== Sys2Proof/Machine/WireFormat.lean ====
section
/-! DEFINITION. The wire format of a frame in closed form (rule R77, rule R78, rule R84, rule R85, rule R181). No
command uses it: it is what the statements about whole frames compare the units' output with. -/

namespace Sys2Proof.Machine

/-- The payload split at every sentinel: one run more than it has sentinels (rule R181). -/
def splitRuns (s : Byte) : List Byte → List (List Byte)
  | [] => [[]]
  | b :: x =>
    if b = s then [] :: splitRuns s x
    else
      match splitRuns s x with
      | [] => [[b]]
      | q :: qs => (b :: q) :: qs

/-- A run that a sentinel ends, cut into full pieces of `m` bytes and one shorter rest, which may be empty (rule R181).
`fuel` bounds the pieces; the run's length is enough. -/
def cutInner (m : Nat) : Nat → List Byte → List (List Byte)
  | 0, q => [q]
  | fuel + 1, q => if q.length < m then [q] else q.take m :: cutInner m fuel (q.drop m)

/-- The last run of a frame, cut into pieces of `m` bytes, the last holding 1 to `m`; an empty run is one empty piece
(rule R181). -/
def cutLast (m : Nat) : Nat → List Byte → List (List Byte)
  | 0, q => [q]
  | fuel + 1, q => if q.length ≤ m then [q] else q.take m :: cutLast m fuel (q.drop m)

/-- The data of the frame's groups, in order (rule R181). -/
def chunksOf (m : Nat) : List (List Byte) → List (List Byte)
  | [] => []
  | [q] => cutLast m q.length q
  | q :: qs => cutInner m q.length q ++ chunksOf m qs

/-- A group on the wire: its length byte, then its data (rule R78, rule R81). -/
def wireGroup (s : Byte) (d : List Byte) : List Byte := BitVec.ofNat 8 (lengthByte s d.length) :: d

/-- The final group on the wire, reduced when `r` is on and its last data byte is above its length byte (rule R85). -/
def wireFinal (s : Byte) (r : Bool) (d : List Byte) : List Byte :=
  match d.getLast? with
  | some last =>
    if r = true ∧ lengthByte s d.length < last.toNat then last :: d.dropLast else wireGroup s d
  | none => wireGroup s d

/-- The groups of a frame on the wire: all but the last as they are, the last as the final group (rule R181). -/
def wireGroups (s : Byte) (r : Bool) : List (List Byte) → List Byte
  | [] => []
  | [d] => wireFinal s r d
  | d :: ds => wireGroup s d ++ wireGroups s r ds

/-- The data of a frame's final group (rule R181). -/
def finalChunk (x : List Byte) (s : Byte) : List Byte :=
  (chunksOf (maxData s) (splitRuns s x)).getLastD []

/-- Whether the COBS/R shrink applies to a final group holding `d` (rule R85). -/
def shrinkApplies (s : Byte) (d : List Byte) : Bool :=
  match d.getLast? with
  | some last => decide (lengthByte s d.length < last.toNat)
  | none => false

/-- `max(1, ceil(len / m))`, the most groups `len` bytes cost (rule R188). -/
def groupsFor (len m : Nat) : Nat := max 1 ((len + m - 1) / m)

/-- `EncodeFrame(x, s, r, a)` in closed form (rule R181). -/
def closedFrame (x : List Byte) (s : Byte) (r a : Bool) : List Byte :=
  wireGroups s r (chunksOf (maxData s) (splitRuns s x)) ++ if a then [s] else []

end Sys2Proof.Machine
end

