-- ==== Sys2Proof/Safety.lean ====
section
/-! DEFINITION. The terms the statements use: the group being built as bytes, the good states, runs and their ends
(rule R23, rule R31, rule R202, rule R246). -/

namespace Sys2Proof.Machine

/-- The data bytes of the group being built, in order. -/
def EncState.data (e : EncState) : List Byte := e.buf.map Prod.snd

/-- The group being built as it goes on the wire unshrunk: length byte, then data (rule R52). -/
def EncState.group (e : EncState) : List Byte := e.code :: e.data

/-- The length byte of an empty group, `skip_s(0x01)` (rule R101). -/
def freshCode (s : Byte) : Byte := if s = 0x01 then 0x02 else 0x01

/-- The unit with an empty group (rule R101). -/
def EncState.emptied (e : EncState) : EncState := { e with n := 0, code := freshCode e.cfgS, buf := [] }

/-- The length byte after one more data byte, `skip_s(code + 1)` (rule R103). -/
def nextCode (s code : Byte) : Byte := if code + 1 = s then code + 2 else code + 1

/-- The unit with one more data byte in its group (rule R103, step 3). -/
def EncState.pushed (e : EncState) (c : Byte) : EncState :=
  { e with n := e.n + 1, code := nextCode e.cfgS e.code, buf := e.buf ++ [(e.n.toNat, c)] }

/-- The final group on the wire: shrunk when COBS/R applies (rule R85, rule R104). -/
def EncState.finalGroup (e : EncState) : List Byte :=
  match e.data.getLast? with
  | some last => if e.cfgR = true ∧ e.code < last then last :: e.data.dropLast else e.group
  | none => e.group

/-- The `err` values the block can hold: ENC can raise only an illegal command; DEC every error (rule R202;
DEDUCED, log entry 15). -/
abbrev State.ErrInv (s : State) : Prop :=
  (s.enc.err = 0 ∨ s.enc.err = Response.errIllegalCmd.code) ∧
  (s.dec.err = 0 ∨ s.dec.err = Response.errUnexpectedEof.code ∨ s.dec.err = Response.errIncompleteFrame.code ∨
    s.dec.err = Response.errBadLength.code ∨ s.dec.err = Response.errIllegalCmd.code)

/-- A good state: both units' invariants hold and `err` holds what the block can raise. -/
abbrev State.Good (s : State) : Prop := s.Inv ∧ s.ErrInv

/-- A unit whose `err` is set has answered a command with that error since reset (rule R203, rule R246). -/
abbrev State.ErrReported (s : State) : Prop :=
  (s.enc.err ≠ 0 → ∃ r ∈ s.encPort.responses, r.isError = true ∧ r.code = s.enc.err) ∧
  (s.dec.err ≠ 0 → ∃ r ∈ s.decPort.responses, r.isError = true ∧ r.code = s.dec.err)

/-- A unit's run so far is error-free: no response lies in 2 to 5 and `err` is 0 (rule R246). -/
abbrev errorFree (p : PortState) (err : BitVec 3) : Prop :=
  (∀ r ∈ p.responses, r.isError = false) ∧ err = 0

/-- Whether command `i`, answered with `r`, completes a frame on its unit (rule R246). The rule names no code for
`ENC.CLOSE`; the model counts OK alone, since a close answered with ERR_HALTED was not run (rule R209; DEDUCED, log
entry 16). -/
def completesFrame : Instr → Response → Bool
  | .encClose, .ok => true
  | .decByte _, .endOfFrame => true
  | .decClose, .ok => true
  | _, _ => false

/-- Whether a host move sends a command to unit `u` or takes one's answer from it. -/
def HostMove.isCommandOn (u : UnitId) : HostMove → Bool
  | .offer v _ => v == u
  | .collect v => v == u
  | .readStatus _ => false
  | .reset => false

/-- The run of unit `u` has ended: no command is in flight on it, and the host has no more commands for it before a reset
begins another run (rule R246; that the moves to come are a list is the model's choice, log entry 1). -/
abbrev State.unitRunEnded (s : State) (u : UnitId) : Prop :=
  s.inFlight u = none ∧ ∀ m ∈ s.host.takeWhile (· != .reset), m.isCommandOn u = false

/-- The runs of both units have ended and the host has no more moves at all, status reads among them. Rule R246 ends the
run of one unit alone; this joint end is the model's own (DESIGN CHOICE, log entry 16). -/
abbrev State.runEnded (s : State) : Prop :=
  s.host = [] ∧ s.encPort.inFlight = none ∧ s.decPort.inFlight = none

/-- The states a host can bring about from reset, whatever moves it makes (rule R246). -/
inductive Reachable : State → Prop where
  | start (host : List HostMove) : Reachable { State.reset with host := host }
  | step {s t : State} : Reachable s → step s = .next t → Reachable t

end Sys2Proof.Machine
end

