-- ==== Sys2Proof/Certificates/Slice0/Obligations.lean ====
section
/-! DEFINITION. The statements for the provers, in the order of the spec's files: encodings, ports and status, reset,
errors, the encoder, the decoder, frames of both, invariants, the pipeline. -/

open Sys2Proof Sys2Proof.Machine

/-! ### Encodings (30_encoding) -/

/-- Decoding the word of a command gives the command back, for every operand (rule R70 to rule R73, rule R87). -/
def Obligations.DecodeOfEncode : Prop :=
  ∀ i : Instr, decode i.unit (encode i) = .ok i

/-- Rule R73: a word is legal exactly when it matches a row of its unit's table, and then it is the word of exactly the
command it decodes to. -/
def Obligations.LegalWordsMatchTheTable : Prop :=
  ∀ (u : UnitId) (w : CmdWord),
    (Legal u w = true ↔
      w &&& 0xFF00 = 0x0000 ∨ w &&& 0xFFFF = 0x1000 ∨
        w &&& (match u with | .enc => 0xFC00 | .dec => 0xFE00) = 0x2000 ∨ w &&& 0xFFFF = 0x3000) ∧
    (Legal u w = true ↔ ∃ i, decode u w = .ok i) ∧
    ∀ i, decode u w = .ok i → i.unit = u ∧ encode i = w

/-- Words written out from rule R73's patterns and the spec's examples decode to the commands they stand for. -/
def Obligations.SpecWordsDecode : Prop :=
  decode .enc 0b0000000001000001 = .ok (.encByte 0x41) ∧
  decode .enc 0b0001000000000000 = .ok .encClose ∧
  decode .enc 0b0010001101111110 = .ok (.encConfig 0x7E true true) ∧
  decode .enc 0b0011000000000000 = .ok .encClear ∧
  decode .dec 0b0000000001000001 = .ok (.decByte 0x41) ∧
  decode .dec 0b0001000000000000 = .ok .decClose ∧
  decode .dec 0b0010000110000000 = .ok (.decConfig 0x80 true) ∧
  decode .dec 0b0011000000000000 = .ok .decClear ∧
  decode .dec 0b0010001000000000 = .error .unusedField ∧
  decode .enc 0b0100000000000000 = .error .reservedOp

/-- The assembler's table of words (rule R87), on lines of the spec. -/
def Obligations.AssemblerWords : Prop :=
  Asm.assemble "ENC.BYTE 0x41".toList = some (.enc, 0x0041) ∧
  Asm.assemble "ENC.BYTE 'A'".toList = some (.enc, 0x0041) ∧
  Asm.assemble "ENC.CONFIG 0x7E, r=1, a=1".toList = some (.enc, 0x237E) ∧
  Asm.assemble "ENC.CONFIG 0x00, a=1".toList = some (.enc, 0x2200) ∧
  Asm.assemble "ENC.CLOSE".toList = some (.enc, 0x1000) ∧
  Asm.assemble "ENC.CLEAR ; discard".toList = some (.enc, 0x3000) ∧
  Asm.assemble "DEC.BYTE 65".toList = some (.dec, 0x0041) ∧
  Asm.assemble "DEC.CONFIG 0x05".toList = some (.dec, 0x2005) ∧
  Asm.assemble "DEC.CLOSE".toList = some (.dec, 0x1000) ∧
  Asm.assemble "DEC.CLEAR".toList = some (.dec, 0x3000)

/-- Rule R81, with rule R80: over `0..M(s)`, `L_s` is strictly increasing, is a legal length byte and never the
sentinel, and reaches `maxCode(s)` at `M(s)`. -/
def Obligations.LengthByteOfGroup : Prop :=
  ∀ s : Byte,
    (∀ k, k ≤ maxData s →
      1 ≤ lengthByte s k ∧ lengthByte s k ≤ (maxCode s).toNat ∧ lengthByte s k ≠ s.toNat) ∧
    (∀ j k, j < k → k ≤ maxData s → lengthByte s j < lengthByte s k) ∧
    lengthByte s (maxData s) = (maxCode s).toNat

/-- Rule R82 and rule R83: `L_s` maps `0..M(s)` one to one onto the legal length bytes, `D_s` is its inverse, and `D_s`
is defined on no other byte. -/
def Obligations.DataCountInvertsLengthByte : Prop :=
  ∀ s : Byte,
    (∀ k, k ≤ maxData s → dataCount s (BitVec.ofNat 8 (lengthByte s k)) = some k) ∧
    (∀ c : Byte, (1 ≤ c.toNat ∧ c.toNat ≤ (maxCode s).toNat ∧ c ≠ s) →
      ∃ k, k ≤ maxData s ∧ c = BitVec.ofNat 8 (lengthByte s k) ∧ dataCount s c = some k) ∧
    (∀ c : Byte, ¬(1 ≤ c.toNat ∧ c.toNat ≤ (maxCode s).toNat ∧ c ≠ s) → dataCount s c = none)

/-! ### Ports, status and the step (10_state, 20_memory, 42_control) -/

/-- When the host collects a word that decodes, the step is that command's `exec`, with the move taken off the host's
list and the port free (rule R56, rule R59, rule R160; log entries 1 and 3). -/
def Obligations.StepRunsDecodedCommand : Prop :=
  ∀ (s : State) (u : UnitId) (rest : List HostMove) (w : CmdWord) (i : Instr),
    s.Inv → s.host = .collect u :: rest → s.inFlight u = some w → decode u w = .ok i →
    step s = exec i (State.setInFlight { s with host := rest } u none)

/-- When the host collects an illegal word, the step raises `ERR_ILLEGAL_CMD` on that unit (rule R160, rule R205; log
entries 1 and 3). -/
def Obligations.StepRaisesOnIllegalWord : Prop :=
  ∀ (s : State) (u : UnitId) (rest : List HostMove) (w : CmdWord),
    s.Inv → s.host = .collect u :: rest → s.inFlight u = some w → Legal u w = false →
    step s = illegalCommand u (State.setInFlight { s with host := rest } u none)

/-- A word offered to a free port lies in flight there and changes nothing else; a port that is not free takes none
(rule R59, rule R234; log entries 1, 3 and 4). -/
def Obligations.OfferFillsOnlyAFreePort : Prop :=
  ∀ (s : State) (w : CmdWord) (rest : List HostMove), s.Inv →
    (s.host = .offer .enc w :: rest → s.encPort.inFlight = none →
      step s = .next { s with host := rest, encPort := { s.encPort with inFlight := some w } }) ∧
    (s.host = .offer .dec w :: rest → s.decPort.inFlight = none →
      step s = .next { s with host := rest, decPort := { s.decPort with inFlight := some w } }) ∧
    (s.host = .offer .enc w :: rest → s.encPort.inFlight ≠ none → step s = .refused .portBusy) ∧
    (s.host = .offer .dec w :: rest → s.decPort.inFlight ≠ none → step s = .refused .portBusy)

/-- Between moves of the host the block holds its state (rule R220; log entry 5). -/
def Obligations.IdleStepHoldsState : Prop :=
  ∀ s : State, s.Inv → s.host = [] → step s = .next s

/-- Rule R165: a status read returns the unit's status word and changes nothing of the block, at any time: while a
command is in flight, while the unit is halted. -/
def Obligations.StatusReadHasNoSideEffect : Prop :=
  ∀ (s : State) (rest : List HostMove), s.Inv →
    (s.host = .readStatus .enc :: rest →
      step s = .next { s with host := rest, reads := s.reads ++ [(.enc, s.enc.status)] }) ∧
    (s.host = .readStatus .dec :: rest →
      step s = .next { s with host := rest, reads := s.reads ++ [(.dec, s.dec.status)] })

/-- Rule R26: the fields of ENC.STATUS, its reserved bits, its reset value, and that only ENC.CONFIG writes S, R and A. -/
def Obligations.EncStatusLayout : Prop :=
  (∀ e : EncState,
    e.status.extractLsb' 0 8 = e.cfgS ∧ e.status.getLsbD 8 = e.cfgR ∧ e.status.getLsbD 9 = e.cfgA ∧
    e.status.extractLsb' 10 2 = 0 ∧ e.status.extractLsb' 12 3 = e.err ∧ e.status.getLsbD 15 = false ∧
    e.status.extractLsb' 16 8 = e.code ∧ e.status.extractLsb' 24 8 = e.n) ∧
  State.reset.enc.status = 0x00010000 ∧
  ∀ (i : Instr) (s t : State), (∀ c r a, i ≠ .encConfig c r a) → exec i s = .next t →
    t.enc.status.extractLsb' 0 10 = s.enc.status.extractLsb' 0 10

/-- Rule R34, with rule R33: the fields of DEC.STATUS, NEEDS_MORE exactly when `codeIndex` is not 0, the reserved bits,
the reset value, and that only DEC.CONFIG writes S and R. -/
def Obligations.DecStatusLayout : Prop :=
  (∀ d : DecState,
    d.status.extractLsb' 0 8 = d.cfgS ∧ d.status.getLsbD 8 = d.cfgR ∧ d.status.getLsbD 9 = false ∧
    (d.status.getLsbD 10 = true ↔ d.codeIndex ≠ 0) ∧ d.status.getLsbD 11 = false ∧
    d.status.extractLsb' 12 3 = d.err ∧ d.status.getLsbD 15 = false ∧
    d.status.extractLsb' 16 8 = d.code ∧ d.status.extractLsb' 24 8 = d.codeIndex) ∧
  State.reset.dec.status = 0x00FF0000 ∧
  ∀ (i : Instr) (s t : State), (∀ c r, i ≠ .decConfig c r) → exec i s = .next t →
    t.dec.status.extractLsb' 0 9 = s.dec.status.extractLsb' 0 9

/-- Rule R160: the dispatch of a word, in its fixed order. -/
def Obligations.DispatchOrder : Prop :=
  ∀ (w : CmdWord) (s : State),
    (Legal .enc w = false → dispatchWord .enc w s = finishEnc s (.ok (s.enc.raise .errIllegalCmd))) ∧
    (Legal .enc w = true → w.extractLsb' 12 4 = 2#4 →
      dispatchWord .enc w s = finishEnc s (s.enc.config (w.extractLsb' 0 8) (w.getLsbD 8) (w.getLsbD 9))) ∧
    (Legal .enc w = true → w.extractLsb' 12 4 = 3#4 → dispatchWord .enc w s = finishEnc s s.enc.clear) ∧
    (Legal .enc w = true → w.extractLsb' 12 4 ≠ 2#4 → w.extractLsb' 12 4 ≠ 3#4 → s.enc.err ≠ 0 →
      dispatchWord .enc w s = .next { s with encPort := s.encPort.record [] .errHalted }) ∧
    (Legal .enc w = true → w.extractLsb' 12 4 = 0#4 → s.enc.err = 0 →
      dispatchWord .enc w s = finishEnc s (s.enc.byte (w.extractLsb' 0 8))) ∧
    (Legal .enc w = true → w.extractLsb' 12 4 = 1#4 → s.enc.err = 0 →
      dispatchWord .enc w s = finishEnc s s.enc.close) ∧
    (Legal .dec w = false → dispatchWord .dec w s = finishDec s (.ok (s.dec.raise .errIllegalCmd))) ∧
    (Legal .dec w = true → w.extractLsb' 12 4 = 2#4 →
      dispatchWord .dec w s = finishDec s (.ok (s.dec.config (w.extractLsb' 0 8) (w.getLsbD 8)))) ∧
    (Legal .dec w = true → w.extractLsb' 12 4 = 3#4 → dispatchWord .dec w s = finishDec s (.ok s.dec.clear)) ∧
    (Legal .dec w = true → w.extractLsb' 12 4 ≠ 2#4 → w.extractLsb' 12 4 ≠ 3#4 → s.dec.err ≠ 0 →
      dispatchWord .dec w s = .next { s with decPort := s.decPort.record [] .errHalted }) ∧
    (Legal .dec w = true → w.extractLsb' 12 4 = 0#4 → s.dec.err = 0 →
      dispatchWord .dec w s = finishDec s (s.dec.byte (w.extractLsb' 0 8))) ∧
    (Legal .dec w = true → w.extractLsb' 12 4 = 1#4 → s.dec.err = 0 →
      dispatchWord .dec w s = finishDec s (.ok s.dec.close))

/-! ### Reset (70_reset_and_hazards) -/

/-- The fields rule R22, rule R30 and rule R230 give reset. -/
def Obligations.ResetValues : Prop :=
  State.reset.enc.cfgS = 0x00 ∧ State.reset.enc.cfgR = false ∧ State.reset.enc.cfgA = false ∧
  State.reset.enc.code = 0x01 ∧ State.reset.enc.n = 0 ∧ (∀ i, State.reset.enc.buf.read i = none) ∧
  State.reset.enc.err = 0 ∧
  State.reset.dec.cfgS = 0x00 ∧ State.reset.dec.cfgR = false ∧ State.reset.dec.code = 0xFF ∧
  State.reset.dec.codeIndex = 0 ∧ State.reset.dec.err = 0

/-- Rule R230: the reset event puts both units into the listed state at once, whatever they held; nothing is emitted and
no response is given, and the streams start empty. The model's choice, not rule R230's, are the clauses on `reads` and
`runs`, which keep what the host read and what the run had produced (log entry 6), and the clause on `host`, the moves
still to come (log entry 1); that both ports must be free is log entry 11. -/
def Obligations.ResetEventRestartsBlock : Prop :=
  ∀ (s : State) (rest : List HostMove),
    s.Inv → s.host = .reset :: rest → s.encPort.inFlight = none → s.decPort.inFlight = none →
    ∃ t, step s = .next t ∧
      t.enc.cfgS = 0x00 ∧ t.enc.cfgR = false ∧ t.enc.cfgA = false ∧ t.enc.code = 0x01 ∧ t.enc.n = 0 ∧
      (∀ i, t.enc.buf.read i = none) ∧ t.enc.err = 0 ∧
      t.dec.cfgS = 0x00 ∧ t.dec.cfgR = false ∧ t.dec.code = 0xFF ∧ t.dec.codeIndex = 0 ∧ t.dec.err = 0 ∧
      t.enc.status = 0x00010000 ∧ t.dec.status = 0x00FF0000 ∧
      t.encPort.outputs = [] ∧ t.encPort.responses = [] ∧ t.encPort.inFlight = none ∧
      t.decPort.outputs = [] ∧ t.decPort.responses = [] ∧ t.decPort.inFlight = none ∧
      t.host = rest ∧ t.reads = s.reads ∧ t.runs = s.runs ++ [(s.encRun, s.decRun)]

/-- Rule R231: reset is never applied while a command is in progress, and for one unit CONFIG with the default word
0x2000 has the same effect on that unit alone, but for its OK response. That such a reset is refused, by a name of its own,
is the model's reading (log entries 4 and 11). -/
def Obligations.ResetOnlyBetweenCommands : Prop :=
  (∀ (s : State) (rest : List HostMove), s.Inv → s.host = .reset :: rest →
    (s.encPort.inFlight ≠ none ∨ s.decPort.inFlight ≠ none) → step s = .refused .resetInProgress) ∧
  (∀ (s t : State) (rest : List HostMove), s.host = .reset :: rest → step s = .next t →
    dispatchWord .enc 0x2000 s = .next { s with enc := t.enc, encPort := s.encPort.record [] .ok } ∧
    dispatchWord .dec 0x2000 s = .next { s with dec := t.dec, decPort := s.decPort.record [] .ok })

/-! ### Errors and the halted state (60_exceptions) -/

/-- Rule R74 and rule R205: an illegal word always answers `ERR_ILLEGAL_CMD`, halted or not; the first error is kept,
nothing is emitted and nothing else changes. -/
def Obligations.IllegalWordRaises : Prop :=
  ∀ (w : CmdWord) (s : State),
    (Legal .enc w = false →
      dispatchWord .enc w s = .next { s with
        enc := { s.enc with err := if s.enc.err = 0 then 5 else s.enc.err },
        encPort := s.encPort.record [] .errIllegalCmd }) ∧
    (Legal .dec w = false →
      dispatchWord .dec w s = .next { s with
        dec := { s.dec with err := if s.dec.err = 0 then 5 else s.dec.err },
        decPort := s.decPort.record [] .errIllegalCmd })

/-- Rule R201 and rule R209: a unit whose `err` is not 0 answers BYTE and CLOSE with `ERR_HALTED` and nothing changes;
CONFIG and CLEAR still run, and end the halt. -/
def Obligations.HaltedUnitRefusesData : Prop :=
  ∀ (s : State) (c : Byte) (r a : Bool),
    (s.enc.err ≠ 0 →
      s.enc.halted = true ∧
      exec (.encByte c) s = .next { s with encPort := s.encPort.record [] .errHalted } ∧
      exec .encClose s = .next { s with encPort := s.encPort.record [] .errHalted } ∧
      (∃ t, exec (.encConfig c r a) s = .next t ∧ t.enc.halted = false) ∧
      (∃ t, exec .encClear s = .next t ∧ t.enc.halted = false)) ∧
    (s.dec.err ≠ 0 →
      s.dec.halted = true ∧
      exec (.decByte c) s = .next { s with decPort := s.decPort.record [] .errHalted } ∧
      exec .decClose s = .next { s with decPort := s.decPort.record [] .errHalted } ∧
      (∃ t, exec (.decConfig c r) s = .next t ∧ t.dec.halted = false) ∧
      (∃ t, exec .decClear s = .next t ∧ t.dec.halted = false)) ∧
    (s.enc.err = 0 → s.enc.halted = false) ∧ (s.dec.err = 0 → s.dec.halted = false)

/-- Rule R203: a command whose response is an error has emitted nothing and changed nothing of its unit but `err`, which
keeps the first error; and `err` becomes non-zero in no other way. -/
def Obligations.RaisingIsPrecise : Prop :=
  ∀ (w : CmdWord) (s t : State),
    (dispatchWord .enc w s = .next t →
      ∃ out r, t.encPort.log = s.encPort.log ++ [⟨out, r⟩] ∧
        (r.isError = true →
          out = [] ∧ t.enc = { s.enc with err := if s.enc.err = 0 then r.code else s.enc.err }) ∧
        (r.isError = false → t.enc.err = s.enc.err ∨ t.enc.err = 0)) ∧
    (dispatchWord .dec w s = .next t →
      ∃ out r, t.decPort.log = s.decPort.log ++ [⟨out, r⟩] ∧
        (r.isError = true →
          out = [] ∧ t.dec = { s.dec with err := if s.dec.err = 0 then r.code else s.dec.err }) ∧
        (r.isError = false → t.dec.err = s.dec.err ∨ t.dec.err = 0))

/-- Rule R202: the conditions under which each error is the response to a word, on either unit. -/
def Obligations.ErrorCauses : Prop :=
  ∀ (w : CmdWord) (s t : State),
    (dispatchWord .enc w s = .next t →
      (t.encPort.lastResponse = some .errIllegalCmd ↔ Legal .enc w = false) ∧
      ∀ r, t.encPort.lastResponse = some r → r.isError = true → r = .errIllegalCmd) ∧
    (dispatchWord .dec w s = .next t →
      (t.decPort.lastResponse = some .errIllegalCmd ↔ Legal .dec w = false) ∧
      (t.decPort.lastResponse = some .errUnexpectedEof ↔
        s.dec.err = 0 ∧ decode .dec w = .ok (.decByte s.dec.cfgS) ∧ s.dec.cfgR = false ∧ s.dec.codeIndex ≠ 0) ∧
      (t.decPort.lastResponse = some .errIncompleteFrame ↔
        s.dec.err = 0 ∧ decode .dec w = .ok .decClose ∧ s.dec.cfgR = false ∧ s.dec.codeIndex ≠ 0) ∧
      (t.decPort.lastResponse = some .errBadLength ↔
        s.dec.err = 0 ∧ decode .dec w = .ok (.decByte 0x00) ∧ s.dec.cfgS ≠ 0x00 ∧ s.dec.codeIndex = 0))

/-! ### Encoder commands (40_encoder, 42_control) -/

/-- Rule R103: `ENC.BYTE` on a running unit. A full group goes first; the sentinel ends the run and is not stored; any
other byte is appended, and the length byte moves past the sentinel. At most 256 bytes are emitted. -/
def Obligations.EncByteEffect : Prop :=
  ∀ (s : State) (c : Byte), s.enc.Inv → s.enc.err = 0 →
    ∃ out : List Byte,
      exec (.encByte c) s = .next { s with
        enc :=
          if c = s.enc.cfgS then s.enc.emptied
          else if s.enc.code = maxCode s.enc.cfgS then s.enc.emptied.pushed c
          else s.enc.pushed c,
        encPort := s.encPort.record out .ok } ∧
      out =
        (if s.enc.code = maxCode s.enc.cfgS then s.enc.group else []) ++
        (if c = s.enc.cfgS then
          if s.enc.code = maxCode s.enc.cfgS then [freshCode s.enc.cfgS] else s.enc.group
        else []) ∧
      out.length ≤ 256 ∧ encode (.encByte c) = 0x00#8 ++ c

/-- Rule R104: `ENC.CLOSE` on a running unit. The final group goes out, shrunk exactly when COBS/R applies, then the
terminator if `cfg_a` asks for it; a fresh group begins. At most 256 bytes are emitted, and none but the terminator is
the sentinel. A full group is never shrunk. -/
def Obligations.EncCloseEffect : Prop :=
  ∀ s : State, s.enc.Inv → s.enc.err = 0 →
    ∃ out : List Byte,
      exec .encClose s = .next { s with
        enc := s.enc.emptied,
        encPort := s.encPort.record (out ++ if s.enc.cfgA = true then [s.enc.cfgS] else []) .ok } ∧
      (∀ last, s.enc.data.getLast? = some last → s.enc.cfgR = true → s.enc.code < last →
        out = last :: s.enc.data.dropLast) ∧
      (¬(∃ last, s.enc.data.getLast? = some last ∧ s.enc.cfgR = true ∧ s.enc.code < last) →
        out = s.enc.code :: s.enc.data) ∧
      (s.enc.code = maxCode s.enc.cfgS → out = s.enc.code :: s.enc.data) ∧
      out.length ≤ 255 ∧ s.enc.cfgS ∉ out ∧ encode .encClose = 0x1000

/-- Rule R161: `ENC.CONFIG` loads the configuration, clears the error and starts a fresh group; a group being built is
discarded without output. -/
def Obligations.EncConfigEffect : Prop :=
  ∀ (s : State) (c : Byte) (r a : Bool),
    exec (.encConfig c r a) s = .next { s with
      enc := ⟨c, r, a, if c = 0x01 then 0x02 else 0x01, 0, [], 0⟩,
      encPort := s.encPort.record [] .ok } ∧
    encode (.encConfig c r a) = 0x2000 ||| (if a then 0x0200 else 0) ||| (if r then 0x0100 else 0) ||| c.setWidth 16

/-- Rule R162: `ENC.CLEAR` clears the error and starts a fresh group; the configuration stays and nothing is emitted. -/
def Obligations.EncClearEffect : Prop :=
  ∀ s : State,
    exec .encClear s = .next { s with
      enc := { s.enc with err := 0, n := 0, buf := [], code := if s.enc.cfgS = 0x01 then 0x02 else 0x01 },
      encPort := s.encPort.record [] .ok } ∧
    encode .encClear = 0x3000

/-- Rule R235: a second `ENC.CLOSE` is not an error; it emits the empty frame, and the terminator if `cfg_a` is on. -/
def Obligations.SecondCloseEmitsEmptyFrame : Prop :=
  ∀ s t : State, s.enc.Inv → s.enc.err = 0 → exec .encClose s = .next t →
    exec .encClose t = .next { t with
      encPort := t.encPort.record
        (freshCode t.enc.cfgS :: if t.enc.cfgA = true then [t.enc.cfgS] else []) .ok }

/-! ### Decoder commands (41_decoder, 42_control) -/

/-- Rule R132: the terminator on a running unit. -/
def Obligations.DecTerminatorEffect : Prop :=
  ∀ s : State, s.dec.err = 0 →
    (s.dec.cfgR = true → s.dec.codeIndex ≠ 0 →
      exec (.decByte s.dec.cfgS) s = .next { s with
        dec := { s.dec with code := maxCode s.dec.cfgS, codeIndex := 0 },
        decPort := s.decPort.record [s.dec.code] .endOfFrame }) ∧
    (s.dec.cfgR = false → s.dec.codeIndex ≠ 0 →
      exec (.decByte s.dec.cfgS) s = .next { s with
        dec := { s.dec with err := 2 },
        decPort := s.decPort.record [] .errUnexpectedEof }) ∧
    (s.dec.codeIndex = 0 →
      exec (.decByte s.dec.cfgS) s = .next { s with
        dec := { s.dec with code := maxCode s.dec.cfgS },
        decPort := s.decPort.record [] .endOfFrame })

/-- Rule R133: a data byte is emitted unchanged and one byte fewer is owed; the count does not wrap. -/
def Obligations.DecDataByteEffect : Prop :=
  ∀ (s : State) (c : Byte), s.dec.err = 0 → c ≠ s.dec.cfgS → s.dec.codeIndex ≠ 0 →
    exec (.decByte c) s = .next { s with
      dec := { s.dec with codeIndex := s.dec.codeIndex - 1 },
      decPort := s.decPort.record [c] .ok } ∧
    (s.dec.codeIndex - 1).toNat + 1 = s.dec.codeIndex.toNat

/-- Rule R134: a length byte. 0x00 is refused when the sentinel is not 0x00; any other declares `D_s(c)` data bytes,
after the payload's sentinel is rebuilt when the previous group was not full. -/
def Obligations.DecLengthByteEffect : Prop :=
  ∀ (s : State) (c : Byte), s.dec.err = 0 → c ≠ s.dec.cfgS → s.dec.codeIndex = 0 →
    (s.dec.cfgS ≠ 0x00 → c = 0x00 →
      exec (.decByte c) s = .next { s with
        dec := { s.dec with err := 4 },
        decPort := s.decPort.record [] .errBadLength }) ∧
    (¬(s.dec.cfgS ≠ 0x00 ∧ c = 0x00) →
      ∃ k : Byte, dataCount s.dec.cfgS c = some k.toNat ∧
        exec (.decByte c) s = .next { s with
          dec := { s.dec with code := c, codeIndex := k },
          decPort := s.decPort.record
            (if s.dec.code ≠ maxCode s.dec.cfgS then [s.dec.cfgS] else []) .ok })

/-- Rule R136: every byte on every unhalted state has exactly one of four answers. -/
def Obligations.DecByteIsTotal : Prop :=
  ∀ (s : State) (c : Byte), s.dec.err = 0 →
    ∃ t r, exec (.decByte c) s = .next t ∧ t.decPort.responses = s.decPort.responses ++ [r] ∧
      (r = .ok ∨ r = .endOfFrame ∨ r = .errUnexpectedEof ∨ r = .errBadLength)

/-- Rule R135: `DEC.CLOSE` on a running unit. -/
def Obligations.DecCloseEffect : Prop :=
  ∀ s : State, s.dec.err = 0 →
    (s.dec.cfgR = true → s.dec.codeIndex ≠ 0 →
      exec .decClose s = .next { s with
        dec := { s.dec with code := maxCode s.dec.cfgS, codeIndex := 0 },
        decPort := s.decPort.record [s.dec.code] .ok }) ∧
    (s.dec.cfgR = false → s.dec.codeIndex ≠ 0 →
      exec .decClose s = .next { s with
        dec := { s.dec with err := 3 },
        decPort := s.decPort.record [] .errIncompleteFrame }) ∧
    (s.dec.codeIndex = 0 →
      exec .decClose s = .next { s with
        dec := { s.dec with code := maxCode s.dec.cfgS },
        decPort := s.decPort.record [] .ok }) ∧
    encode .decClose = 0x1000

/-- Rule R163: `DEC.CONFIG` loads the configuration, clears the error and returns to frame start; a pending reduced-mode
byte is discarded. -/
def Obligations.DecConfigEffect : Prop :=
  ∀ (s : State) (c : Byte) (r : Bool),
    exec (.decConfig c r) s = .next { s with
      dec := ⟨c, r, if c = 0xFF then 0xFE else 0xFF, 0, 0⟩,
      decPort := s.decPort.record [] .ok } ∧
    encode (.decConfig c r) = 0x2000 ||| (if r then 0x0100 else 0) ||| c.setWidth 16

/-- Rule R164: `DEC.CLEAR` clears the error and returns to frame start; the configuration stays. -/
def Obligations.DecClearEffect : Prop :=
  ∀ s : State,
    exec .decClear s = .next { s with
      dec := { s.dec with err := 0, codeIndex := 0, code := if s.dec.cfgS = 0xFF then 0xFE else 0xFF },
      decPort := s.decPort.record [] .ok } ∧
    encode .decClear = 0x3000

/-- Rule R137: one decoder command emits at most one byte. -/
def Obligations.DecEmitsAtMostOneByte : Prop :=
  ∀ (i : Instr) (s t : State), i.unit = .dec → exec i s = .next t →
    ∃ out r, t.decPort.log = s.decPort.log ++ [⟨out, r⟩] ∧ out.length ≤ 1

/-- Rule R240: in reduced mode no data command reports a frame cut short. -/
def Obligations.ReducedModeCannotReportTruncation : Prop :=
  ∀ (i : Instr) (s t : State), s.dec.cfgR = true → (i = .decClose ∨ ∃ c, i = .decByte c) → exec i s = .next t →
    t.decPort.lastResponse ≠ some .errUnexpectedEof ∧ t.decPort.lastResponse ≠ some .errIncompleteFrame

/-- Rule R236: after `END_OF_FRAME`, `DEC.CLOSE` answers OK, emits nothing and changes nothing of the unit. -/
def Obligations.CloseAfterEndOfFrameDoesNothing : Prop :=
  ∀ (s t : State) (c : Byte), exec (.decByte c) s = .next t → t.decPort.lastResponse = some .endOfFrame →
    exec .decClose t = .next { t with decPort := t.decPort.record [] .ok }

/-! ### What a command leaves alone (20_memory R60, 40_encoder R105, 42_control R166) -/

/-- An ENC command leaves DEC, DEC's port, the host's side and its own port's word in flight alone and adds one entry to
its port's log; but for CONFIG the configuration stays; BYTE and CLOSE never write `err`. -/
def Obligations.EncCommandFrame : Prop :=
  ∀ (i : Instr) (s t : State), i.unit = .enc → exec i s = .next t →
    t.dec = s.dec ∧ t.decPort = s.decPort ∧ t.host = s.host ∧ t.reads = s.reads ∧ t.runs = s.runs ∧
    t.encPort.inFlight = s.encPort.inFlight ∧ (∃ x, t.encPort.log = s.encPort.log ++ [x]) ∧
    ((∀ c r a, i ≠ .encConfig c r a) →
      t.enc.cfgS = s.enc.cfgS ∧ t.enc.cfgR = s.enc.cfgR ∧ t.enc.cfgA = s.enc.cfgA) ∧
    ((i = .encClose ∨ ∃ c, i = .encByte c) → t.enc.err = s.enc.err)

/-- A DEC command leaves ENC (every byte of the group buffer among it), ENC's port, the host's side and its own port's
word in flight alone and adds one entry to its port's log; but for CONFIG the configuration stays; BYTE and CLOSE write
`err` only when it is 0 and the response is an error. -/
def Obligations.DecCommandFrame : Prop :=
  ∀ (i : Instr) (s t : State), i.unit = .dec → exec i s = .next t →
    t.enc = s.enc ∧ t.encPort = s.encPort ∧ t.host = s.host ∧ t.reads = s.reads ∧ t.runs = s.runs ∧
    t.decPort.inFlight = s.decPort.inFlight ∧ (∃ x, t.decPort.log = s.decPort.log ++ [x]) ∧
    ((∀ c r, i ≠ .decConfig c r) → t.dec.cfgS = s.dec.cfgS ∧ t.dec.cfgR = s.dec.cfgR) ∧
    ((i = .decClose ∨ ∃ c, i = .decByte c) →
      t.dec.err = s.dec.err ∨
        (s.dec.err = 0 ∧ ∃ r, t.decPort.lastResponse = some r ∧ r.isError = true ∧ t.dec.err = r.code))

/-- The group buffer under `ENC.BYTE`, entry by entry (rule R51, rule R103): a byte that is stored without a flush goes
to entry `n` and every other entry reads as before; after a flush every entry holds no value but the one stored; a
halted unit stores nothing. -/
def Obligations.EncByteBufferFrame : Prop :=
  ∀ (s t : State) (c : Byte), exec (.encByte c) s = .next t →
    (s.enc.err ≠ 0 → ∀ a, t.enc.buf.read a = s.enc.buf.read a) ∧
    (s.enc.err = 0 → c ≠ s.enc.cfgS → s.enc.code ≠ maxCode s.enc.cfgS →
      t.enc.buf.read s.enc.n.toNat = some c ∧
      ∀ a, a ≠ s.enc.n.toNat → t.enc.buf.read a = s.enc.buf.read a) ∧
    (s.enc.err = 0 → c ≠ s.enc.cfgS → s.enc.code = maxCode s.enc.cfgS →
      t.enc.buf.read 0 = some c ∧ ∀ a, a ≠ 0 → t.enc.buf.read a = none) ∧
    (s.enc.err = 0 → c = s.enc.cfgS → ∀ a, t.enc.buf.read a = none)

/-- Rule R60: a command on one unit is never affected by a command on the other; either order gives the same machine. -/
def Obligations.UnitsCommute : Prop :=
  ∀ (w v : CmdWord) (s : State),
    andThen (dispatchWord .enc w s) (dispatchWord .dec v) = andThen (dispatchWord .dec v s) (dispatchWord .enc w)

/-- Rule R166: a unit's configuration changes only by that unit's CONFIG command and by reset. -/
def Obligations.ConfigurationChangesOnlyByConfigOrReset : Prop :=
  ∀ s t : State, step s = .next t →
    ((t.enc.cfgS ≠ s.enc.cfgS ∨ t.enc.cfgR ≠ s.enc.cfgR ∨ t.enc.cfgA ≠ s.enc.cfgA) →
      (∃ rest, s.host = .reset :: rest) ∨
      ∃ rest w c r a, s.host = .collect .enc :: rest ∧ s.encPort.inFlight = some w ∧
        decode .enc w = .ok (.encConfig c r a)) ∧
    ((t.dec.cfgS ≠ s.dec.cfgS ∨ t.dec.cfgR ≠ s.dec.cfgR) →
      (∃ rest, s.host = .reset :: rest) ∨
      ∃ rest w c r, s.host = .collect .dec :: rest ∧ s.decPort.inFlight = some w ∧
        decode .dec w = .ok (.decConfig c r))

/-- CLEAR, and CONFIG with the same operands, are idempotent (rule R57): the second leaves the unit as it is. -/
def Obligations.ClearAndConfigAreIdempotent : Prop :=
  ∀ (i : Instr) (s t : State),
    (i = .encClear ∨ i = .decClear ∨ (∃ c r a, i = .encConfig c r a) ∨ (∃ c r, i = .decConfig c r)) →
    exec i s = .next t → ∃ v, exec i t = .next v ∧ v.enc = t.enc ∧ v.dec = t.dec

/-! ### Invariants (10_state R23, R24, R31; 70_reset R246) -/

/-- The state after reset is a good one. -/
def Obligations.ResetIsGood : Prop := State.reset.Good ∧ State.reset.ErrReported

/-- Rule R23 and rule R31 hold after every command, and `err` holds only what the block can raise: every step from a good
state leads to a good state. -/
def Obligations.StepKeepsGood : Prop :=
  ∀ s t : State, s.Good → step s = .next t → t.Good

/-- No step from a good state is a model fault: the requirements of rule R51, the impossible case of rule R100 and every
sum of rule R12 hold. -/
def Obligations.GoodStepNeverFaults : Prop :=
  ∀ s : State, s.Good → ∀ f, step s ≠ .fault f

/-- Whatever the host does from reset, the model's own faults cannot be reached (rule R246). -/
def Obligations.ReachableStatesNeverFault : Prop :=
  ∀ s : State, Reachable s → s.Good ∧ ∀ f, step s ≠ .fault f

/-- Every command keeps the group buffer's canonical form, also in states no run reaches. -/
def Obligations.CommandsKeepBufferForm : Prop :=
  ∀ (i : Instr) (s t : State), s.enc.buf.wf → exec i s = .next t → t.enc.buf.wf

/-- A sticky error has been answered: whatever the host does, a unit whose `err` is set has given that response since
reset (rule R203, rule R246). -/
def Obligations.StepKeepsErrorsReported : Prop :=
  ∀ s t : State, s.ErrReported → step s = .next t → t.ErrReported

/-! ### The pipeline (43_pipeline) -/

/-- Rule R180 and rule R181: from any state, encoding a frame emits the closed form, every command responds OK, and the
unit ends with a fresh group. -/
def Obligations.EncodeFrameClosedForm : Prop :=
  ∀ (x : List Byte) (s : Byte) (r a : Bool) (st : State),
    ∃ t, encodeFrame x s r a st = .next ⟨t, closedFrame x s r a, some .ok⟩ ∧
      t.enc = ⟨s, r, a, freshCode s, 0, [], 0⟩ ∧ t.dec = st.dec ∧
      t.encPort.responses = st.encPort.responses ++ List.replicate (x.length + 2) .ok

/-- Rule R184: decoding what ENC emits for a payload gives the payload and OK, for every payload, sentinel and option, from
any two states. -/
def Obligations.RoundTrip : Prop :=
  ∀ (x : List Byte) (s : Byte) (r a : Bool) (st st' : State),
    ∃ t bytes, encodeFrame x s r a st = .next ⟨t, bytes, some .ok⟩ ∧
      ∃ t', decodeFrame bytes s r st' = .next ⟨t', x, some .ok⟩

/-- Rule R185: no byte on the wire is the sentinel, but the terminator at the end when it is asked for. -/
def Obligations.SentinelFreedom : Prop :=
  ∀ (x : List Byte) (s : Byte) (r : Bool) (st : State),
    (∃ t bytes, encodeFrame x s r false st = .next ⟨t, bytes, some .ok⟩ ∧ s ∉ bytes) ∧
    (∃ t bytes, encodeFrame x s r true st = .next ⟨t, bytes ++ [s], some .ok⟩ ∧ s ∉ bytes)

/-- Rule R186: reduced mode never makes a frame longer; it saves one byte exactly when the shrink applies. -/
def Obligations.ReducedModeNeverExpands : Prop :=
  ∀ (x : List Byte) (s : Byte) (a : Bool) (st : State),
    ∃ t t' reduced plain,
      encodeFrame x s true a st = .next ⟨t, reduced, some .ok⟩ ∧
      encodeFrame x s false a st = .next ⟨t', plain, some .ok⟩ ∧
      plain.length = reduced.length + (if shrinkApplies s (finalChunk x s) = true then 1 else 0) ∧
      reduced.length ≤ plain.length

/-- Rule R187: the empty payload; any run of `M(s)` bytes other than the sentinel, which fills one group exactly; and one
more such byte, which starts a new group. For every sentinel; with 0x00 the numbers are the source's. -/
def Obligations.BoundaryFrames : Prop :=
  ∀ (s d : Byte) (x : List Byte) (st : State), s ∉ x → x.length = maxData s → d ≠ s →
    (∃ t, encodeFrame [] s false false st = .next ⟨t, [freshCode s], some .ok⟩) ∧
    (∃ t, encodeFrame x s false false st = .next ⟨t, maxCode s :: x, some .ok⟩) ∧
    (∃ t, encodeFrame (x ++ [d]) s false false st =
      .next ⟨t, maxCode s :: x ++ [BitVec.ofNat 8 (lengthByte s 1), d], some .ok⟩) ∧
    maxData s = (if s = 0x00 then 254 else 253) ∧
    freshCode 0x00 = 0x01 ∧ maxCode 0x00 = 0xFF ∧ lengthByte 0x00 1 = 2

/-- Rule R188: the exact bound on a frame's length, reached without reduced mode by every payload without the sentinel. -/
def Obligations.OutputLengthBound : Prop :=
  ∀ (x : List Byte) (s : Byte) (r a : Bool) (st : State),
    ∃ t bytes, encodeFrame x s r a st = .next ⟨t, bytes, some .ok⟩ ∧
      bytes.length ≤ x.length + groupsFor x.length (maxData s) + (if a then 1 else 0) ∧
      (r = false → s ∉ x →
        bytes.length = x.length + groupsFor x.length (maxData s) + (if a then 1 else 0))

/-- Rule R189: how a byte stream is split into WRITE calls makes no difference, on either unit. -/
def Obligations.WritesAreIncremental : Prop :=
  ∀ (x y : List Byte) (count : Nat) (s : State),
    encWriteFrom count (x ++ y) s =
      andThen (encWriteFrom count x s)
        (fun w => if w.resp = some .ok then encWriteFrom w.count y w.st else .next w) ∧
    decWriteFrom count (x ++ y) s =
      andThen (decWriteFrom count x s)
        (fun w => if w.resp = some .ok then decWriteFrom w.count y w.st else .next w)

/-- Rule R183: running the units in lock-step, or ENC to the end first, gives the same machine. -/
def Obligations.LockStepEqualsEncFirst : Prop :=
  ∀ (is : List Instr) (s : State), (∀ i ∈ is, i.unit = .enc) → loopLockStep is s = loopEncFirst is s

/-- Rule R183, with the terminator on: from equal configurations at frame start, one frame through both units in lock-step
delivers the payload, ends with `END_OF_FRAME`, and leaves both units at frame start, so the next frame can follow. -/
def Obligations.LoopbackDeliversFrame : Prop :=
  ∀ (x : List Byte) (s : State),
    s.enc.Inv → s.enc.n = 0 → s.enc.err = 0 → s.enc.cfgA = true →
    s.dec.cfgS = s.enc.cfgS → s.dec.cfgR = s.enc.cfgR → s.dec.err = 0 →
    s.dec.code = maxCode s.dec.cfgS → s.dec.codeIndex = 0 →
    ∃ t, loopLockStep (encFrameCommands x) s = .next t ∧ t.enc = s.enc ∧ t.dec = s.dec ∧
      s.decPort.emittedSince t.decPort = x ∧ t.decPort.lastResponse = some .endOfFrame

/-- Rule R190: the source's two malformed inputs, from any state; in reduced mode both decode without error. -/
def Obligations.MalformedInput : Prop :=
  ∀ st : State,
    (∃ t, decodeFrame [0x02] 0x00 false st = .next ⟨t, [], some .errIncompleteFrame⟩ ∧ t.dec.err = 3) ∧
    (∃ t, decodeFrame [0x02, 0x00] 0x00 false st = .next ⟨t, [], some .errUnexpectedEof⟩ ∧ t.dec.err = 2) ∧
    (∃ t, decodeFrame [0x02] 0x00 true st = .next ⟨t, [0x02], some .ok⟩) ∧
    (∃ t, decodeFrame [0x02, 0x00] 0x00 true st = .next ⟨t, [0x02], some .ok⟩)

/-- Rule R191's example of a configuration mismatch. -/
def Obligations.MismatchExample : Prop :=
  (∃ t, encodeFrame [0x41, 0xFF] 0x00 true false State.reset = .next ⟨t, [0xFF, 0x41], some .ok⟩) ∧
  (∃ t, decodeFrame [0xFF, 0x41] 0x00 false State.reset = .next ⟨t, [0x41], some .errIncompleteFrame⟩)
end

