-- ==== Sys2Proof/Laws/Operands.lean ====
section
/-! SUPPORT. One lemma for each length-byte function and each checked sum: everything it can answer. -/

namespace Sys2Proof.Machine

theorem byte_eq_iff {a b : Byte} : a = b ↔ a.toNat = b.toNat := BitVec.toNat_inj.symm

theorem byte_eq_zero_iff {s : Byte} : s = 0x00 ↔ s.toNat = 0 := byte_eq_iff

theorem byte_eq_top_iff {s : Byte} : s = 0xFF ↔ s.toNat = 255 := byte_eq_iff

theorem maxCode_toNat (s : Byte) : (maxCode s).toNat = if s.toNat = 255 then 254 else 255 := by
  simp only [maxCode, byte_eq_top_iff]
  split <;> rfl

theorem maxData_eq (s : Byte) : maxData s = if s.toNat = 0 then 254 else 253 := by
  simp only [maxData, byte_eq_zero_iff]

theorem lengthByte_eq (s : Byte) (k : Nat) :
    lengthByte s k = if s.toNat = 0 ∨ k + 1 < s.toNat then k + 1 else k + 2 := by
  simp only [lengthByte, byte_eq_zero_iff]

/-- The legal length bytes as numbers (rule R83). -/
theorem legalLength_iff (s c : Byte) :
    legalLength s c = true ↔ 1 ≤ c.toNat ∧ c.toNat ≤ (maxCode s).toNat ∧ c.toNat ≠ s.toNat := by
  simp only [legalLength, Bool.and_eq_true, decide_eq_true_eq, BitVec.le_def, ne_eq, byte_eq_iff, and_assoc]
  rfl

/-- `D_s(c)` as a number, where it is defined (rule R82). -/
theorem dataCount_eq (s c : Byte) (h : legalLength s c = true) :
    dataCount s c = some (if s.toNat = 0 ∨ c.toNat < s.toNat then c.toNat - 1 else c.toNat - 2) := by
  simp only [dataCount, if_pos h, byte_eq_zero_iff, BitVec.lt_def]

theorem succByte_ok {v : Byte} (h : v.toNat < 255) : succByte v = .ok (v + 1) := by
  unfold succByte
  rw [if_neg]
  intro h'
  subst h'
  exact absurd h (by decide)

theorem predByte_ok {v : Byte} (h : 0 < v.toNat) : predByte v = .ok (v - 1) := by
  unfold predByte
  rw [if_neg]
  intro h'
  subst h'
  exact absurd h (by decide)

theorem succ_toNat {v : Byte} (h : v.toNat < 255) : (v + 1).toNat = v.toNat + 1 := by
  rw [BitVec.toNat_add]
  refine Nat.mod_eq_of_lt ?_
  change v.toNat + 1 < 256
  omega

theorem pred_toNat {v : Byte} (h : 0 < v.toNat) : (v - 1).toNat = v.toNat - 1 := by
  have := v.isLt
  simp only [BitVec.toNat_sub]
  simp
  omega

/-- `skip_s(v)` where it cannot overflow (rule R100). -/
theorem skipS_ok {s v : Byte} (h : v.toNat ≤ (maxCode s).toNat) :
    skipS s v = .ok (if v = s then v + 1 else v) := by
  unfold skipS
  by_cases hv : v = s
  · subst hv
    rw [if_pos rfl, if_pos rfl, if_neg]
    intro hff
    subst hff
    exact absurd h (by decide)
  · rw [if_neg hv, if_neg hv]

theorem skipS_one (s : Byte) : skipS s 0x01 = .ok (freshCode s) := by
  unfold skipS freshCode
  by_cases h : s = 0x01
  · subst h
    rfl
  · rw [if_neg (Ne.symm h), if_neg h]

/-- An empty group's length byte is `L_s(0)` (rule R81, rule R101). -/
theorem freshCode_toNat (s : Byte) : (freshCode s).toNat = lengthByte s 0 := by
  rw [lengthByte_eq]
  unfold freshCode
  by_cases h : s = 0x01
  · subst h
    rfl
  · have hn : s.toNat ≠ 1 := fun h' => h (byte_eq_iff.mpr h')
    rw [if_neg h, if_pos (by omega)]
    rfl

/-- `L_s(k)` stays a byte, is never the sentinel, and reaches `maxCode(s)` exactly at `M(s)` (rule R81). -/
theorem lengthByte_bounds (s : Byte) {k : Nat} (hk : k ≤ maxData s) :
    1 ≤ lengthByte s k ∧ lengthByte s k ≤ (maxCode s).toNat ∧ lengthByte s k ≠ s.toNat ∧
      (k = maxData s ↔ lengthByte s k = (maxCode s).toNat) := by
  have := s.isLt
  rw [maxCode_toNat, lengthByte_eq]
  rw [maxData_eq] at hk ⊢
  split_ifs at hk ⊢ <;> omega

/-- One more data byte moves the length byte from `L_s(k)` to `L_s(k + 1)` (rule R81, rule R103). -/
theorem nextCode_toNat {s code : Byte} {k : Nat} (hk : k < maxData s) (h : code.toNat = lengthByte s k) :
    (nextCode s code).toNat = lengthByte s (k + 1) := by
  have hs := s.isLt
  have hb := lengthByte_bounds s (Nat.le_of_lt hk)
  have hlt : code.toNat < (maxCode s).toNat := by
    rcases hb with ⟨_, h1, _, h2⟩
    have : lengthByte s k ≠ (maxCode s).toNat := fun h' => absurd (h2.mpr h') (Nat.ne_of_lt hk)
    omega
  have h255 : code.toNat < 255 := by
    have : (maxCode s).toNat ≤ 255 := by rw [maxCode_toNat]; split <;> omega
    omega
  have h1 := succ_toNat h255
  unfold nextCode
  by_cases heq : code + 1 = s
  · have hcs : code.toNat + 1 = s.toNat := h1 ▸ congrArg BitVec.toNat heq
    rw [if_pos heq, lengthByte_eq]
    have hm : (maxCode s).toNat = if s.toNat = 255 then 254 else 255 := maxCode_toNat s
    have h2 : (code + 2).toNat = code.toNat + 2 := by
      rw [BitVec.toNat_add]
      refine Nat.mod_eq_of_lt ?_
      change code.toNat + 2 < 256
      split_ifs at hm <;> omega
    rw [h2]
    rw [lengthByte_eq] at h
    split_ifs at h ⊢ <;> omega
  · have hcs : code.toNat + 1 ≠ s.toNat := fun h' => heq (byte_eq_iff.mpr (h1.trans h'))
    rw [if_neg heq, h1, lengthByte_eq]
    rw [lengthByte_eq] at h
    split_ifs at h ⊢ <;> omega

/-- The decoder's count is `D_s(c)` for every byte that reaches it: neither the sentinel nor 0x00 (rule R134). -/
theorem declaredCount_ok {s c : Byte} (hs : c ≠ s) (h0 : ¬(s ≠ 0x00 ∧ c = 0x00)) :
    ∃ k : Byte, declaredCount s c = .ok k ∧ dataCount s c = some k.toNat := by
  have hc : 0 < c.toNat := by
    rcases Nat.eq_zero_or_pos c.toNat with h | h
    · have hc0 : c = 0x00 := byte_eq_iff.mpr h
      exact absurd ⟨fun hs0 => hs (hc0.trans hs0.symm), hc0⟩ h0
    · exact h
  have hcs : c.toNat ≠ s.toNat := fun h => hs (byte_eq_iff.mpr h)
  have hlt := c.isLt
  have hslt := s.isLt
  have hlegal : legalLength s c = true := by
    rw [legalLength_iff, maxCode_toNat]
    refine ⟨hc, ?_, hcs⟩
    split <;> omega
  have hp := pred_toNat hc
  rw [dataCount_eq s c hlegal]
  unfold declaredCount
  rw [predByte_ok hc]
  simp only [bind, Except.bind]
  by_cases h : s ≠ 0x00 ∧ s < c
  · have hs1 : s.toNat ≠ 0 := fun h' => h.1 (byte_eq_iff.mpr h')
    have hlt' : s.toNat < c.toNat := h.2
    have hp1 : 0 < (c - 1).toNat := by omega
    rw [if_pos h, predByte_ok hp1]
    refine ⟨_, rfl, ?_⟩
    rw [pred_toNat hp1, if_neg (by omega)]
    congr 1
    omega
  · rw [if_neg h]
    refine ⟨_, rfl, ?_⟩
    rw [hp, if_pos]
    by_cases hs0 : s = 0x00
    · exact .inl (congrArg BitVec.toNat hs0)
    · have : ¬ s.toNat < c.toNat := fun h' => h ⟨hs0, h'⟩
      omega

end Sys2Proof.Machine
end

