-- ==== Sys2Proof/Laws/State.lean ====
section
/-! SUPPORT. What each update of a part of the state leaves in each field: true by unfolding once, so that no later
proof unfolds a record update. -/

namespace Sys2Proof.Machine

section Port
variable (p : PortState) (out : List Byte) (r : Response)

@[simp] theorem PortState.record_inFlight : (p.record out r).inFlight = p.inFlight := rfl
@[simp] theorem PortState.record_log : (p.record out r).log = p.log ++ [⟨out, r⟩] := rfl

@[simp] theorem PortState.record_outputs : (p.record out r).outputs = p.outputs ++ out := by
  simp [PortState.outputs]

@[simp] theorem PortState.record_responses : (p.record out r).responses = p.responses ++ [r] := by
  simp [PortState.responses]

@[simp] theorem PortState.record_lastResponse : (p.record out r).lastResponse = some r := by
  simp [PortState.lastResponse]

@[simp] theorem PortState.record_lastOutput : (p.record out r).lastOutput = out := by
  simp [PortState.lastOutput]

end Port

section InFlight
variable (s : State) (u : UnitId) (w : Option CmdWord)

@[simp] theorem State.setInFlight_enc : (s.setInFlight u w).enc = s.enc := by cases u <;> rfl
@[simp] theorem State.setInFlight_dec : (s.setInFlight u w).dec = s.dec := by cases u <;> rfl
@[simp] theorem State.setInFlight_host : (s.setInFlight u w).host = s.host := by cases u <;> rfl
@[simp] theorem State.setInFlight_reads : (s.setInFlight u w).reads = s.reads := by cases u <;> rfl
@[simp] theorem State.setInFlight_runs : (s.setInFlight u w).runs = s.runs := by cases u <;> rfl
@[simp] theorem State.setInFlight_encLog : (s.setInFlight u w).encPort.log = s.encPort.log := by cases u <;> rfl
@[simp] theorem State.setInFlight_decLog : (s.setInFlight u w).decPort.log = s.decPort.log := by cases u <;> rfl
@[simp] theorem State.setInFlight_self : (s.setInFlight u w).inFlight u = w := by cases u <;> rfl

@[simp] theorem State.setInFlight_other {v : UnitId} (h : v ≠ u) : (s.setInFlight u w).inFlight v = s.inFlight v := by
  cases u <;> cases v <;> first | rfl | exact absurd rfl h

end InFlight

section Read
variable (s : State) (u : UnitId)

@[simp] theorem State.readStatus_enc : (s.readStatus u).enc = s.enc := rfl
@[simp] theorem State.readStatus_dec : (s.readStatus u).dec = s.dec := rfl
@[simp] theorem State.readStatus_encPort : (s.readStatus u).encPort = s.encPort := rfl
@[simp] theorem State.readStatus_decPort : (s.readStatus u).decPort = s.decPort := rfl
@[simp] theorem State.readStatus_host : (s.readStatus u).host = s.host := rfl
@[simp] theorem State.readStatus_runs : (s.readStatus u).runs = s.runs := rfl
@[simp] theorem State.readStatus_reads : (s.readStatus u).reads = s.reads ++ [(u, s.status u)] := rfl

end Read

section Reset
variable (s : State)

@[simp] theorem State.resetBlock_enc : s.resetBlock.enc = EncState.reset := rfl
@[simp] theorem State.resetBlock_dec : s.resetBlock.dec = DecState.reset := rfl
@[simp] theorem State.resetBlock_encPort : s.resetBlock.encPort = PortState.reset := rfl
@[simp] theorem State.resetBlock_decPort : s.resetBlock.decPort = PortState.reset := rfl
@[simp] theorem State.resetBlock_host : s.resetBlock.host = s.host := rfl
@[simp] theorem State.resetBlock_reads : s.resetBlock.reads = s.reads := rfl
@[simp] theorem State.resetBlock_runs : s.resetBlock.runs = s.runs ++ [(s.encRun, s.decRun)] := rfl

end Reset

section Raise
variable (e : EncState) (d : DecState) (r : Response)

@[simp] theorem EncState.raise_out : (e.raise r).out = [] := rfl
@[simp] theorem EncState.raise_resp : (e.raise r).resp = r := rfl
@[simp] theorem EncState.raise_st : (e.raise r).st = { e with err := keepFirst e.err r } := rfl
@[simp] theorem DecState.raise_out : (d.raise r).out = [] := rfl
@[simp] theorem DecState.raise_resp : (d.raise r).resp = r := rfl
@[simp] theorem DecState.raise_st : (d.raise r).st = { d with err := keepFirst d.err r } := rfl

end Raise

section Fresh
variable (e : EncState) (d : DecState) (c : Byte)

@[simp] theorem EncState.emptied_cfgS : e.emptied.cfgS = e.cfgS := rfl
@[simp] theorem EncState.emptied_cfgR : e.emptied.cfgR = e.cfgR := rfl
@[simp] theorem EncState.emptied_cfgA : e.emptied.cfgA = e.cfgA := rfl
@[simp] theorem EncState.emptied_code : e.emptied.code = freshCode e.cfgS := rfl
@[simp] theorem EncState.emptied_n : e.emptied.n = 0 := rfl
@[simp] theorem EncState.emptied_buf : e.emptied.buf = [] := rfl
@[simp] theorem EncState.emptied_err : e.emptied.err = e.err := rfl
@[simp] theorem EncState.emptied_data : e.emptied.data = [] := rfl
@[simp] theorem EncState.pushed_cfgS : (e.pushed c).cfgS = e.cfgS := rfl
@[simp] theorem EncState.pushed_cfgR : (e.pushed c).cfgR = e.cfgR := rfl
@[simp] theorem EncState.pushed_cfgA : (e.pushed c).cfgA = e.cfgA := rfl
@[simp] theorem EncState.pushed_code : (e.pushed c).code = nextCode e.cfgS e.code := rfl
@[simp] theorem EncState.pushed_n : (e.pushed c).n = e.n + 1 := rfl
@[simp] theorem EncState.pushed_buf : (e.pushed c).buf = e.buf ++ [(e.n.toNat, c)] := rfl
@[simp] theorem EncState.pushed_err : (e.pushed c).err = e.err := rfl

@[simp] theorem EncState.pushed_data : (e.pushed c).data = e.data ++ [c] := by
  simp [EncState.data]

@[simp] theorem DecState.initFrame_cfgS : d.initFrame.cfgS = d.cfgS := rfl
@[simp] theorem DecState.initFrame_cfgR : d.initFrame.cfgR = d.cfgR := rfl
@[simp] theorem DecState.initFrame_code : d.initFrame.code = maxCode d.cfgS := rfl
@[simp] theorem DecState.initFrame_codeIndex : d.initFrame.codeIndex = 0 := rfl
@[simp] theorem DecState.initFrame_err : d.initFrame.err = d.err := rfl

end Fresh

end Sys2Proof.Machine
end

