-- ==== Sys2Proof/Laws/Decoder.lean ====
section
/-! SUPPORT. One lemma for each decoder operation: it never faults, and this is what it answers. Then: what keeps rule
R31's invariant. -/

namespace Sys2Proof.Machine

section Commands
variable (d : DecState) (c : Byte)

theorem DecState.flushPending_idle (h : d.codeIndex = 0) : d.flushPending = (d, []) := by
  unfold DecState.flushPending
  rw [if_neg]
  rintro ⟨-, hp⟩
  rw [h] at hp
  exact absurd hp (by decide)

theorem DecState.flushPending_plain (h : d.cfgR = false) : d.flushPending = (d, []) := by
  unfold DecState.flushPending
  rw [if_neg]
  rintro ⟨hr, -⟩
  rw [h] at hr
  exact absurd hr (by decide)

theorem DecState.flushPending_pending (h : d.codeIndex ≠ 0) (hr : d.cfgR = true) :
    d.flushPending = ({ d with codeIndex := 0 }, [d.code]) := by
  unfold DecState.flushPending
  rw [if_pos ⟨hr, Nat.pos_of_ne_zero fun h' => h (byte_eq_zero_iff.mpr h')⟩]

/-- The terminator's three cases (rule R132). -/
theorem DecState.terminatorCase_eq :
    d.terminatorCase =
      if d.codeIndex = 0 then ⟨{ d with code := maxCode d.cfgS }, [], .endOfFrame⟩
      else if d.cfgR = true then ⟨{ d with code := maxCode d.cfgS, codeIndex := 0 }, [d.code], .endOfFrame⟩
      else d.raise .errUnexpectedEof := by
  unfold DecState.terminatorCase
  by_cases hk : d.codeIndex = 0
  · simp only [d.flushPending_idle hk, hk, ne_eq, not_true_eq_false, if_false, if_true]
  · rw [if_neg hk]
    by_cases hr : d.cfgR = true
    · simp only [d.flushPending_pending hk hr, ne_eq, not_true_eq_false, if_false, if_pos hr]
    · simp only [d.flushPending_plain (Bool.eq_false_iff.mpr hr), if_pos hk, if_neg hr]

/-- `DEC.CLOSE`'s three cases (rule R135). -/
theorem DecState.close_eq :
    d.close =
      if d.codeIndex = 0 then ⟨d.initFrame, [], .ok⟩
      else if d.cfgR = true then ⟨d.initFrame, [d.code], .ok⟩
      else d.raise .errIncompleteFrame := by
  unfold DecState.close
  by_cases hk : d.codeIndex = 0
  · simp only [d.flushPending_idle hk, hk, ne_eq, not_true_eq_false, if_false, if_true]
  · rw [if_neg hk]
    by_cases hr : d.cfgR = true
    · simp only [d.flushPending_pending hk hr, ne_eq, not_true_eq_false, if_false, if_pos hr]
      rfl
    · simp only [d.flushPending_plain (Bool.eq_false_iff.mpr hr), if_pos hk, if_neg hr]

variable {d c}

theorem DecState.dataCase_ok (h : d.codeIndex ≠ 0) :
    d.dataCase c = .ok ⟨{ d with codeIndex := d.codeIndex - 1 }, [c], .ok⟩ := by
  have h0 : 0 < d.codeIndex.toNat := Nat.pos_of_ne_zero fun h' => h (byte_eq_zero_iff.mpr h')
  simp only [DecState.dataCase, predByte_ok h0, bind, Except.bind]

theorem DecState.lengthCase_bad (h : d.cfgS ≠ 0x00 ∧ c = 0x00) : d.lengthCase c = .ok (d.raise .errBadLength) := by
  unfold DecState.lengthCase
  rw [if_pos h]

/-- A length byte that is accepted declares `D_s(c)` data bytes (rule R134). -/
theorem DecState.lengthCase_ok (hs : c ≠ d.cfgS) (h : ¬(d.cfgS ≠ 0x00 ∧ c = 0x00)) :
    ∃ k : Byte, dataCount d.cfgS c = some k.toNat ∧
      d.lengthCase c = .ok ⟨{ d with code := c, codeIndex := k }, d.rebuilt, .ok⟩ := by
  obtain ⟨k, hk, hd⟩ := declaredCount_ok hs h
  refine ⟨k, hd, ?_⟩
  unfold DecState.lengthCase
  rw [if_neg h]
  simp only [hk, bind, Except.bind]

/-- `DEC.BYTE` always answers: the case is the byte's and the count's (rule R131, rule R136). -/
theorem DecState.byte_cases (d : DecState) (c : Byte) :
    (c = d.cfgS ∧ d.byte c = .ok d.terminatorCase) ∨
    (c ≠ d.cfgS ∧ d.codeIndex ≠ 0 ∧ d.byte c = .ok ⟨{ d with codeIndex := d.codeIndex - 1 }, [c], .ok⟩) ∨
    (c ≠ d.cfgS ∧ d.codeIndex = 0 ∧ d.cfgS ≠ 0x00 ∧ c = 0x00 ∧ d.byte c = .ok (d.raise .errBadLength)) ∨
    (c ≠ d.cfgS ∧ d.codeIndex = 0 ∧ ¬(d.cfgS ≠ 0x00 ∧ c = 0x00) ∧
      ∃ k : Byte, dataCount d.cfgS c = some k.toNat ∧
        d.byte c = .ok ⟨{ d with code := c, codeIndex := k }, d.rebuilt, .ok⟩) := by
  have hpos : 0 < d.codeIndex.toNat ↔ d.codeIndex ≠ 0 := by
    rw [Nat.pos_iff_ne_zero, ne_eq, ne_eq, byte_eq_zero_iff]
  unfold DecState.byte
  simp only [hpos]
  by_cases hs : c = d.cfgS
  · exact .inl ⟨hs, if_pos hs⟩
  · rw [if_neg hs]
    by_cases hk : d.codeIndex = 0
    · rw [if_neg (fun h => h hk)]
      by_cases hb : d.cfgS ≠ 0x00 ∧ c = 0x00
      · exact .inr (.inr (.inl ⟨hs, hk, hb.1, hb.2, DecState.lengthCase_bad hb⟩))
      · exact .inr (.inr (.inr ⟨hs, hk, hb, DecState.lengthCase_ok hs hb⟩))
    · rw [if_pos hk]
      exact .inr (.inl ⟨hs, hk, DecState.dataCase_ok hk⟩)

end Commands

section Invariant
variable {d : DecState}

theorem maxCode_ne (s : Byte) : maxCode s ≠ s := by
  unfold maxCode
  split
  · rename_i h
    subst h
    decide
  · rename_i h
    exact Ne.symm h

/-- Frame start meets rule R31, whatever came before. -/
theorem DecState.atMarker_inv (d : DecState) :
    DecState.Inv { d with code := maxCode d.cfgS, codeIndex := 0 } :=
  ⟨maxCode_ne d.cfgS, fun h => absurd rfl h, Nat.zero_le _⟩

theorem DecState.initFrame_inv (d : DecState) : d.initFrame.Inv := DecState.atMarker_inv d

theorem DecState.inv_with_err (h : d.Inv) (x : BitVec 3) : DecState.Inv { d with err := x } := h

theorem DecState.inv_marker (h : d.codeIndex = 0) : DecState.Inv { d with code := maxCode d.cfgS } :=
  ⟨maxCode_ne d.cfgS, fun h' => absurd h h', by change d.codeIndex.toNat ≤ 254; rw [h]; exact Nat.zero_le _⟩

theorem DecState.inv_dataByte (h : d.Inv) (hk : d.codeIndex ≠ 0) :
    DecState.Inv { d with codeIndex := d.codeIndex - 1 } := by
  have h0 : 0 < d.codeIndex.toNat := Nat.pos_of_ne_zero fun h' => hk (byte_eq_zero_iff.mpr h')
  have hp := pred_toNat h0
  refine ⟨h.1, fun _ => ?_, ?_⟩
  · have := h.2.1 hk
    simp only [DecState.owedByCode] at this ⊢
    split at this
    · rename_i k heq
      simp only [decide_eq_true_eq] at this ⊢
      omega
    · exact absurd this (by decide)
  · have := h.2.2
    change (d.codeIndex - 1).toNat ≤ 254
    omega

theorem dataCount_le {s c : Byte} {k : Nat} (h : dataCount s c = some k) : k ≤ 254 := by
  have hc := c.isLt
  by_cases hl : legalLength s c = true
  · rw [dataCount_eq s c hl] at h
    have := Option.some.inj h
    split_ifs at this <;> omega
  · simp [dataCount, hl] at h

theorem DecState.inv_lengthByte {c k : Byte} (hs : c ≠ d.cfgS) (hk : dataCount d.cfgS c = some k.toNat) :
    DecState.Inv { d with code := c, codeIndex := k } := by
  refine ⟨hs, fun _ => ?_, dataCount_le hk⟩
  simp [DecState.owedByCode, hk]

end Invariant

end Sys2Proof.Machine
end

