-- ==== Sys2Proof/Laws/Memory.lean ====
section
/-! SUPPORT. The group buffer: a read gives what was written last, a write leaves every other entry alone, and every
operation keeps the canonical form. -/

namespace Sys2Proof.Machine

@[simp] theorem Memory.read_nil (i : Nat) : Memory.read [] i = none := rfl

@[simp] theorem Memory.read_cons (c : Host.Cell) (m : Memory) (i : Nat) :
    Memory.read (c :: m) i = if c.1 = i then some c.2 else Memory.read m i := rfl

@[simp] theorem Memory.read_write_same (m : Memory) (i : Nat) (v : Byte) :
    Memory.read (Memory.write m i v) i = some v := by
  induction m with
  | nil => simp [Memory.write]
  | cons c m ih =>
    simp only [Memory.write]
    split
    · simp
    · split
      · simp
      · rename_i h
        simp [Ne.symm h, ih]

@[simp] theorem Memory.read_write_other (m : Memory) {i j : Nat} (v : Byte) (h : j ≠ i) :
    Memory.read (Memory.write m i v) j = Memory.read m j := by
  induction m with
  | nil => simp [Memory.write, Ne.symm h]
  | cons c m ih =>
    simp only [Memory.write]
    split
    · simp [Ne.symm h]
    · split
      · rename_i hc
        subst hc
        simp [Ne.symm h]
      · simp [ih]

/-- The entries a write leaves: those it found, and the one it wrote. -/
theorem Memory.mem_write (m : Memory) (i : Nat) (v : Byte) {c : Host.Cell} (h : c ∈ Memory.write m i v) :
    c = (i, v) ∨ c ∈ m := by
  induction m with
  | nil => simpa [Memory.write] using h
  | cons d m ih =>
    simp only [Memory.write] at h
    split at h
    · simpa using h
    · split at h
      · have := List.mem_cons.mp h
        exact this.imp_right (List.mem_cons_of_mem d)
      · rcases List.mem_cons.mp h with h | h
        · exact .inr (h ▸ List.mem_cons_self)
        · exact (ih h).imp_right (List.mem_cons_of_mem d)

theorem Memory.wf_nil : Memory.wf [] := by simp [Memory.wf]

/-- A write inside the buffer keeps the canonical form. -/
theorem Memory.wf_write {m : Memory} {i : Nat} {v : Byte} (hi : i < Config.bufEntries) (h : Memory.wf m) :
    Memory.wf (Memory.write m i v) := by
  refine ⟨?_, fun c hc => ?_⟩
  · have hp := h.1
    clear h
    induction m with
    | nil => simp [Memory.write]
    | cons d m ih =>
      have ⟨hd, hm⟩ := List.pairwise_cons.mp hp
      simp only [Memory.write]
      split
      · rename_i hlt
        refine List.pairwise_cons.mpr ⟨fun c hc => ?_, hp⟩
        rcases List.mem_cons.mp hc with rfl | hc
        · exact hlt
        · exact Nat.lt_trans hlt (hd c hc)
      · split
        · rename_i _ heq
          exact List.pairwise_cons.mpr ⟨fun c hc => heq ▸ hd c hc, hm⟩
        · rename_i hge hne
          refine List.pairwise_cons.mpr ⟨fun c hc => ?_, ih hm⟩
          rcases Memory.mem_write m i v hc with rfl | hc
          · change d.1 < i
            omega
          · exact hd c hc
  · rcases Memory.mem_write m i v hc with rfl | hc
    · exact hi
    · exact h.2 c hc

/-- Writing past every listed entry appends. -/
theorem Memory.write_above {m : Memory} {i : Nat} (v : Byte) (h : ∀ c ∈ m, c.1 < i) :
    Memory.write m i v = m ++ [(i, v)] := by
  induction m with
  | nil => rfl
  | cons c m ih =>
    have hc := h c List.mem_cons_self
    have hm := ih fun d hd => h d (List.mem_cons_of_mem c hd)
    simp only [Memory.write, List.cons_append]
    rw [if_neg (by omega), if_neg (by omega), hm]

/-- A buffer whose entries are `b, b + 1, …` reads as the list of its bytes. -/
theorem Memory.read_of_range {m : Memory} {b : Nat} (h : m.map Prod.fst = List.range' b m.length) (i : Nat) :
    Memory.read m (b + i) = (m.map Prod.snd)[i]? := by
  induction m generalizing b i with
  | nil => rfl
  | cons c m ih =>
    simp only [List.map_cons, List.length_cons, List.range'_succ, List.cons.injEq] at h
    cases i with
    | zero => simp [h.1]
    | succ i =>
      have := ih h.2 i
      simp only [Memory.read_cons, List.map_cons, List.getElem?_cons_succ]
      rw [if_neg (by omega), ← this]
      congr 1
      omega

end Sys2Proof.Machine
end

