-- ==== Sys2Proof/Laws/Encoder.lean ====
section
/-! SUPPORT. One lemma for each encoder operation: under rule R23's invariant it never faults, and this is what it
answers. Then: what keeps the invariant. -/

namespace Sys2Proof.Machine

section Buffer
variable {e : EncState}

theorem EncState.inv_length_data (h : e.Inv) : e.data.length = e.n.toNat := by
  have := congrArg List.length h.2.2.2.1
  simpa [EncState.data] using this

theorem EncState.inv_read_buf (h : e.Inv) (i : Nat) : e.buf.read i = e.data[i]? := by
  have hl : e.buf.length = e.n.toNat := by simpa [EncState.data] using EncState.inv_length_data h
  have := Memory.read_of_range (m := e.buf) (b := 0)
    (by rw [h.2.2.2.1, hl, List.range_eq_range']) i
  simpa [EncState.data] using this

theorem EncState.inv_bufRead_ok (h : e.Inv) {i : Nat} (hi : i < e.n.toNat) :
    e.bufRead i = .ok (e.data[i]'((EncState.inv_length_data h).symm ▸ hi)) := by
  unfold EncState.bufRead
  rw [if_pos hi, EncState.inv_read_buf h, List.getElem?_eq_getElem ((EncState.inv_length_data h).symm ▸ hi)]

theorem EncState.inv_bufPrefix_ok (h : e.Inv) {k : Nat} (hk : k ≤ e.n.toNat) :
    e.bufPrefix k = .ok (e.data.take k) := by
  induction k with
  | zero => rfl
  | succ k ih =>
    have hlt : k < e.data.length := by rw [EncState.inv_length_data h]; omega
    simp only [EncState.bufPrefix, ih (by omega), EncState.inv_bufRead_ok h (i := k) (by omega), bind, Except.bind,
      List.take_add_one, List.getElem?_eq_getElem hlt, Option.toList_some]

theorem EncState.inv_groupBytes_ok (h : e.Inv) : e.groupBytes = .ok e.group := by
  simp only [EncState.groupBytes, EncState.inv_bufPrefix_ok h (Nat.le_refl _), bind, Except.bind, EncState.group]
  rw [← EncState.inv_length_data h, List.take_length]

theorem EncState.initGroup_ok (e : EncState) : e.initGroup = .ok e.emptied := by
  simp only [EncState.initGroup, skipS_one, bind, Except.bind]
  rfl

theorem EncState.inv_flushGroup_ok (h : e.Inv) : e.flushGroup = .ok (e.emptied, e.group) := by
  simp only [EncState.flushGroup, EncState.inv_groupBytes_ok h, EncState.initGroup_ok, bind, Except.bind]

/-- The group is full exactly when it holds `M(s)` data bytes (rule R23.2). -/
theorem EncState.inv_full_iff (h : e.Inv) : e.code = maxCode e.cfgS ↔ e.n.toNat = maxData e.cfgS :=
  h.2.2.1.symm

theorem EncState.inv_lt_of_not_full (h : e.Inv) (hf : e.code ≠ maxCode e.cfgS) :
    e.n.toNat < maxData e.cfgS :=
  Nat.lt_of_le_of_ne h.2.1 fun h' => hf ((EncState.inv_full_iff h).mpr h')

theorem maxData_le (s : Byte) : maxData s ≤ 254 := by
  unfold maxData
  split <;> omega

theorem EncState.inv_buf_wf (h : e.Inv) : e.buf.wf := by
  have hr := h.2.2.2.1
  have hn := h.2.1
  have hm := maxData_le e.cfgS
  refine ⟨?_, fun c hc => ?_⟩
  · rw [← List.pairwise_map (f := Prod.fst), hr]
    exact List.pairwise_lt_range
  · have : c.1 ∈ List.range e.n.toNat := hr ▸ List.mem_map_of_mem hc
    have := List.mem_range.mp this
    change c.1 < 254
    omega

theorem EncState.inv_append_ok (h : e.Inv) (hf : e.code ≠ maxCode e.cfgS) (c : Byte) :
    e.append c = .ok (e.pushed c) := by
  have hlt := EncState.inv_lt_of_not_full h hf
  have hm := maxData_le e.cfgS
  have hbelow : ∀ d ∈ e.buf, d.1 < e.n.toNat := fun d hd =>
    List.mem_range.mp (h.2.2.2.1 ▸ List.mem_map_of_mem hd)
  have hb := lengthByte_bounds e.cfgS h.2.1
  have hmc : (maxCode e.cfgS).toNat ≤ 255 := by rw [maxCode_toNat]; split <;> omega
  have hc : e.code.toNat < (maxCode e.cfgS).toNat := by
    have h1 := h.1
    have h2 : e.code.toNat ≠ (maxCode e.cfgS).toNat := fun h' => hf (byte_eq_iff.mpr h')
    omega
  have hn255 : e.n.toNat < 255 := by omega
  have hc255 : e.code.toNat < 255 := by omega
  have hsk := skipS_ok (s := e.cfgS) (v := e.code + 1) (by rw [succ_toNat hc255]; omega)
  have hin : e.n.toNat < Config.bufEntries := by change e.n.toNat < 254; omega
  simp only [EncState.append, EncState.bufWrite, hin, and_self, if_true, succByte_ok hn255,
    succByte_ok hc255, hsk, Memory.write_above c hbelow, bind, Except.bind]
  have : (e.code + 1 + 1 : Byte) = e.code + 2 := by rw [BitVec.add_assoc]; rfl
  simp only [EncState.pushed, nextCode, this]

theorem EncState.inv_flushIfFull_ok (h : e.Inv) :
    e.flushIfFull = .ok (if e.code = maxCode e.cfgS then (e.emptied, e.group) else (e, [])) := by
  unfold EncState.flushIfFull
  split
  · exact EncState.inv_flushGroup_ok h
  · rfl

theorem EncState.inv_finalGroupBytes_ok (h : e.Inv) : e.finalGroupBytes = .ok e.finalGroup := by
  have hl := EncState.inv_length_data h
  unfold EncState.finalGroupBytes EncState.shrinks EncState.finalGroup
  rcases List.eq_nil_or_concat e.data with hd | ⟨front, last, hd⟩
  · have h0 : ¬(e.cfgR = true ∧ 1 ≤ e.n.toNat) := by
      rw [hd] at hl
      rintro ⟨-, h1⟩
      simp at hl
      omega
    simp only [if_neg h0, bind, Except.bind, hd, List.getLast?_nil, Bool.false_eq_true, if_false]
    exact EncState.inv_groupBytes_ok h
  · have hn : e.n.toNat = front.length + 1 := by rw [← hl, hd]; simp
    have hr : e.bufRead (e.n.toNat - 1) = .ok last := by
      rw [EncState.inv_bufRead_ok h (by omega)]
      simp only [hn, hd]
      simp
    have hp : e.bufPrefix (e.n.toNat - 1) = .ok front := by
      rw [EncState.inv_bufPrefix_ok h (by omega), hd, hn]
      simp
    have hlast : e.data.getLast? = some last := by rw [hd]; simp
    have hdrop : e.data.dropLast = front := by rw [hd]; simp
    simp only [hlast, hdrop, hr, hp, bind, Except.bind]
    by_cases hR : e.cfgR = true
    · have h1 : e.cfgR = true ∧ 1 ≤ e.n.toNat := ⟨hR, by omega⟩
      by_cases hlt : e.code < last
      · simp [h1, hlt]
      · simp [h1, hlt, EncState.inv_groupBytes_ok h]
    · simp [hR, EncState.inv_groupBytes_ok h]

end Buffer

section Invariant
variable {e : EncState}

/-- An empty group meets rule R23, whatever came before. -/
theorem EncState.emptied_inv (e : EncState) : e.emptied.Inv := by
  have hb := lengthByte_bounds e.cfgS (Nat.zero_le _)
  have hc := freshCode_toNat e.cfgS
  refine ⟨hc, Nat.zero_le _, ?_, rfl, fun c hc => absurd hc (List.not_mem_nil)⟩
  rw [byte_eq_iff]
  change 0 = maxData e.cfgS ↔ (freshCode e.cfgS).toNat = _
  rw [hc]
  exact hb.2.2.2

/-- Appending a byte that is not the sentinel to a group that is not full keeps rule R23. -/
theorem EncState.inv_pushed_inv (h : e.Inv) (hf : e.code ≠ maxCode e.cfgS) {c : Byte} (hc : c ≠ e.cfgS) :
    (e.pushed c).Inv := by
  have hlt := EncState.inv_lt_of_not_full h hf
  have hm := maxData_le e.cfgS
  have hn : (e.n + 1).toNat = e.n.toNat + 1 := succ_toNat (by omega)
  have hb := lengthByte_bounds e.cfgS (k := e.n.toNat + 1) hlt
  have hk := nextCode_toNat hlt h.1
  refine ⟨?_, ?_, ?_, ?_, ?_⟩
  · simp only [EncState.pushed_code, EncState.pushed_cfgS, EncState.pushed_n, hn, hk]
  · simp only [EncState.pushed_cfgS, EncState.pushed_n, hn]
    omega
  · simp only [EncState.pushed_code, EncState.pushed_cfgS, EncState.pushed_n, hn, byte_eq_iff, hk]
    exact hb.2.2.2
  · simp only [EncState.pushed_buf, EncState.pushed_n, hn, List.map_append, List.map_cons, List.map_nil,
      h.2.2.2.1, List.range_succ]
  · intro d hd
    rcases List.mem_append.mp hd with hd | hd
    · exact h.2.2.2.2 d hd
    · rw [List.mem_singleton.mp hd]
      exact hc

theorem EncState.inv_with_err (h : e.Inv) (x : BitVec 3) : { e with err := x }.Inv := h

end Invariant

section Commands
variable {e : EncState}

/-- The unit before the byte itself is handled: a full group has gone (rule R103, step 1). -/
theorem EncState.inv_byte_ok (h : e.Inv) (c : Byte) :
    e.byte c = .ok
      (if c = e.cfgS then
        if e.code = maxCode e.cfgS then ⟨e.emptied, e.group ++ [freshCode e.cfgS], .ok⟩
        else ⟨e.emptied, e.group, .ok⟩
      else if e.code = maxCode e.cfgS then ⟨e.emptied.pushed c, e.group, .ok⟩
      else ⟨e.pushed c, [], .ok⟩) := by
  unfold EncState.byte
  rw [EncState.inv_flushIfFull_ok h]
  by_cases hf : e.code = maxCode e.cfgS
  · have hne : e.emptied.code ≠ maxCode e.emptied.cfgS := by
      rw [ne_eq, EncState.inv_full_iff e.emptied_inv]
      change ¬ 0 = maxData e.cfgS
      unfold maxData
      split <;> omega
    by_cases hc : c = e.cfgS
    · simp only [if_pos hf, bind, Except.bind, hc, EncState.emptied_cfgS, if_true, EncState.inv_flushGroup_ok e.emptied_inv]
      rfl
    · simp only [if_pos hf, bind, Except.bind, if_neg hc, EncState.emptied_cfgS, EncState.inv_append_ok e.emptied_inv hne]
  · by_cases hc : c = e.cfgS
    · simp only [if_neg hf, bind, Except.bind, hc, if_true, EncState.inv_flushGroup_ok h, List.nil_append]
    · simp only [if_neg hf, bind, Except.bind, if_neg hc, EncState.inv_append_ok h hf]

theorem EncState.inv_close_ok (h : e.Inv) :
    e.close = .ok ⟨e.emptied, e.finalGroup ++ e.terminator, .ok⟩ := by
  simp only [EncState.close, EncState.inv_finalGroupBytes_ok h, EncState.initGroup_ok, bind, Except.bind]
  rfl

theorem EncState.config_ok (e : EncState) (s : Byte) (r a : Bool) :
    e.config s r a = .ok ⟨⟨s, r, a, freshCode s, 0, [], 0⟩, [], .ok⟩ := by
  simp only [EncState.config, EncState.initGroup_ok, bind, Except.bind]
  rfl

theorem EncState.clear_ok (e : EncState) :
    e.clear = .ok ⟨{ e.emptied with err := 0 }, [], .ok⟩ := by
  simp only [EncState.clear, EncState.initGroup_ok, bind, Except.bind]
  rfl

end Commands

end Sys2Proof.Machine
end

