-- ==== Sys2Proof/Laws/Exec.lean ====
section
/-! SUPPORT. What a command can do to the whole machine, said once: the end of a command, and each command's meaning in
terms of its unit's rule. -/

namespace Sys2Proof.Machine

/-- A command that completes changes its unit, and its port's log by one entry. -/
theorem finishEnc_next {s t : State} {r : Except Fault (Done EncState)} (h : finishEnc s r = .next t) :
    ∃ d, r = .ok d ∧ t = { s with enc := d.st, encPort := s.encPort.record d.out d.resp } := by
  cases r with
  | ok d => exact ⟨d, rfl, (Host.Outcome.next.inj h).symm⟩
  | error f => exact absurd h (by simp [finishEnc])

/-- A command that completes changes its unit, and its port's log by one entry. -/
theorem finishDec_next {s t : State} {r : Except Fault (Done DecState)} (h : finishDec s r = .next t) :
    ∃ d, r = .ok d ∧ t = { s with dec := d.st, decPort := s.decPort.record d.out d.resp } := by
  cases r with
  | ok d => exact ⟨d, rfl, (Host.Outcome.next.inj h).symm⟩
  | error f => exact absurd h (by simp [finishDec])

theorem EncState.halted_iff (e : EncState) : e.halted = true ↔ e.err ≠ 0 := by simp [EncState.halted]
theorem DecState.halted_iff (d : DecState) : d.halted = true ↔ d.err ≠ 0 := by simp [DecState.halted]

@[simp] theorem EncState.unlessHalted_running {e : EncState} (h : e.err = 0) (r : Except Fault (Done EncState)) :
    e.unlessHalted r = r := by simp [EncState.unlessHalted, EncState.halted, h]

@[simp] theorem EncState.unlessHalted_halted {e : EncState} (h : e.err ≠ 0) (r : Except Fault (Done EncState)) :
    e.unlessHalted r = .ok ⟨e, [], .errHalted⟩ := by
  unfold EncState.unlessHalted
  rw [if_pos (e.halted_iff.mpr h)]

@[simp] theorem DecState.unlessHalted_running {d : DecState} (h : d.err = 0) (r : Except Fault (Done DecState)) :
    d.unlessHalted r = r := by simp [DecState.unlessHalted, DecState.halted, h]

@[simp] theorem DecState.unlessHalted_halted {d : DecState} (h : d.err ≠ 0) (r : Except Fault (Done DecState)) :
    d.unlessHalted r = .ok ⟨d, [], .errHalted⟩ := by
  unfold DecState.unlessHalted
  rw [if_pos (d.halted_iff.mpr h)]

/-- The unit an ENC command leaves, from its rule, when it runs on an unhalted unit. -/
theorem exec_enc_ok {s : State} {r : Except Fault (Done EncState)} {d : Done EncState} (h : r = .ok d) :
    finishEnc s r = .next { s with enc := d.st, encPort := s.encPort.record d.out d.resp } := by
  rw [h]
  rfl

/-- The unit a DEC command leaves, from its rule, when it runs on an unhalted unit. -/
theorem exec_dec_ok {s : State} {r : Except Fault (Done DecState)} {d : Done DecState} (h : r = .ok d) :
    finishDec s r = .next { s with dec := d.st, decPort := s.decPort.record d.out d.resp } := by
  rw [h]
  rfl

/-- An ENC command ends as its unit's rule says; a DEC command likewise. This is all `exec` can do. -/
theorem exec_cases (i : Instr) (s : State) :
    (i.unit = .enc ∧ ∃ r, exec i s = finishEnc s r) ∨ (i.unit = .dec ∧ ∃ r, exec i s = finishDec s r) := by
  cases i with
  | encByte c => exact .inl ⟨rfl, _, rfl⟩
  | encClose => exact .inl ⟨rfl, _, rfl⟩
  | encConfig c r a => exact .inl ⟨rfl, _, rfl⟩
  | encClear => exact .inl ⟨rfl, _, rfl⟩
  | decByte c => exact .inr ⟨rfl, _, rfl⟩
  | decClose => exact .inr ⟨rfl, _, rfl⟩
  | decConfig c r => exact .inr ⟨rfl, .ok (s.dec.config c r), rfl⟩
  | decClear => exact .inr ⟨rfl, .ok s.dec.clear, rfl⟩

/-- A word decodes only to commands of the unit it arrived on (rule R71). -/
theorem decode_unit {u : UnitId} {w : CmdWord} {i : Instr} (h : decode u w = .ok i) : i.unit = u := by
  unfold decode decodeByte decodeBare decodeConfig at h
  cases u <;> simp only at h <;> split_ifs at h <;> cases h <;> rfl

/-- A dispatched word runs its command, or raises `ERR_ILLEGAL_CMD` (rule R160). -/
theorem dispatchWord_cases (u : UnitId) (w : CmdWord) (s : State) :
    (∃ i, decode u w = .ok i ∧ i.unit = u ∧ dispatchWord u w s = exec i s) ∨
    ((∃ x, decode u w = .error x) ∧ dispatchWord u w s = illegalCommand u s) := by
  cases h : decode u w with
  | ok i => exact .inl ⟨i, rfl, decode_unit h, by simp [dispatchWord, h]⟩
  | error x => exact .inr ⟨⟨x, rfl⟩, by simp [dispatchWord, h]⟩

/-- Everything one step can do when it answers a next state (rule R245). -/
theorem step_cases {s t : State} (h : step s = .next t) :
    s.Inv ∧
    ((s.host = [] ∧ t = s) ∨
      ∃ rest, (∃ u w, s.host = .offer u w :: rest ∧ s.inFlight u = none ∧
          t = State.setInFlight { s with host := rest } u (some w)) ∨
        (∃ u w, s.host = .collect u :: rest ∧ s.inFlight u = some w ∧
          dispatchWord u w (State.setInFlight { s with host := rest } u none) = .next t) ∨
        (∃ u, s.host = .readStatus u :: rest ∧ t = State.readStatus { s with host := rest } u) ∨
        (s.host = .reset :: rest ∧ s.encPort.inFlight = none ∧ s.decPort.inFlight = none ∧
          t = State.resetBlock { s with host := rest })) := by
  have hif : ∀ rest u, State.inFlight { s with host := rest } u = s.inFlight u := fun _ u => by cases u <;> rfl
  unfold step stepCore at h
  split at h
  · cases h
  · rename_i he
    split at h
    · cases h
    · rename_i hd
      refine ⟨⟨not_not.mp he, not_not.mp hd⟩, ?_⟩
      split at h
      · rename_i hh
        exact .inl ⟨hh, (Host.Outcome.next.inj h).symm⟩
      · rename_i m rest hh
        refine .inr ⟨rest, ?_⟩
        cases m with
        | offer u w =>
          simp only [perform, State.offer, hif] at h
          split at h
          · cases h
          · rename_i hf
            exact .inl ⟨u, w, hh, hf, (Host.Outcome.next.inj h).symm⟩
        | collect u =>
          simp only [perform, State.collect, hif] at h
          split at h
          · rename_i w hf
            exact .inr (.inl ⟨u, w, hh, hf, h⟩)
          · cases h
        | readStatus u => exact .inr (.inr (.inl ⟨u, hh, (Host.Outcome.next.inj h).symm⟩))
        | reset =>
          simp only [perform, State.resetMove] at h
          split at h
          · rename_i hf
            exact .inr (.inr (.inr ⟨hh, hf.1, hf.2, (Host.Outcome.next.inj h).symm⟩))
          · cases h

/-- The joint end of both runs is the end of each unit's run (rule R246, log entry 16). -/
theorem State.unitRunEnded_of_runEnded {s : State} (h : s.runEnded) (u : UnitId) : s.unitRunEnded u := by
  obtain ⟨hh, he, hd⟩ := h
  refine ⟨by cases u <;> assumption, fun m hm => ?_⟩
  simp [hh] at hm

end Sys2Proof.Machine
end

