-- ==== Sys2Proof/Laws/PerInstr.lean ====
section
/-! SUPPORT. What holds of every command as syntax, one lemma per constructor: its word is legal on its own port
(rule R73). Before it, the bits of a word in terms of its fields. -/

namespace Sys2Proof

/-- Every bit of a packed word (rule R70). -/
theorem packWord_getLsbD (op : BitVec 4) (a r : Bool) (d : Byte) (i : Nat) :
    (packWord op a r d).getLsbD i =
      if i < 8 then d.getLsbD i else if i = 8 then r else if i = 9 then a
      else if i < 12 then false else op.getLsbD (i - 12) := by
  change (op ++ 0#2 ++ BitVec.ofBool a ++ BitVec.ofBool r ++ d).getLsbD i = _
  simp only [BitVec.getLsbD_append, BitVec.getLsbD_zero, BitVec.getLsbD_ofBool]
  by_cases h1 : i < 8
  · simp [h1]
  · obtain ⟨j, rfl⟩ : ∃ j, i = j + 8 := ⟨i - 8, by omega⟩
    rcases j with _ | _ | _ | _ | j <;> simp

/-- The fields of a packed word are the fields it was packed from (rule R70). -/
theorem packWord_op (op : BitVec 4) (a r : Bool) (d : Byte) :
    (packWord op a r d).extractLsb' 12 4 = op := by
  refine BitVec.eq_of_getLsbD_eq fun i hi => ?_
  rw [BitVec.getLsbD_extractLsb', packWord_getLsbD, if_neg (by omega), if_neg (by omega), if_neg (by omega),
    if_neg (by omega)]
  simp [hi]

theorem packWord_rsv (op : BitVec 4) (a r : Bool) (d : Byte) :
    (packWord op a r d).extractLsb' 10 2 = 0#2 := by
  refine BitVec.eq_of_getLsbD_eq fun i hi => ?_
  rw [BitVec.getLsbD_extractLsb', packWord_getLsbD, if_neg (by omega), if_neg (by omega), if_neg (by omega),
    if_pos (by omega)]
  simp

theorem packWord_a (op : BitVec 4) (a r : Bool) (d : Byte) : (packWord op a r d).getLsbD 9 = a := by
  rw [packWord_getLsbD]
  simp

theorem packWord_r (op : BitVec 4) (a r : Bool) (d : Byte) : (packWord op a r d).getLsbD 8 = r := by
  rw [packWord_getLsbD]
  simp

theorem packWord_d (op : BitVec 4) (a r : Bool) (d : Byte) :
    (packWord op a r d).extractLsb' 0 8 = d := by
  refine BitVec.eq_of_getLsbD_eq fun i hi => ?_
  rw [BitVec.getLsbD_extractLsb', packWord_getLsbD]
  simp [hi]

/-- Bits [11:8] of a word with neither option set are 0. -/
theorem packWord_noOptions (op : BitVec 4) (d : Byte) :
    (packWord op false false d).extractLsb' 8 4 = 0#4 := by
  refine BitVec.eq_of_getLsbD_eq fun i hi => ?_
  rw [BitVec.getLsbD_extractLsb', packWord_getLsbD]
  rcases i with _ | _ | i
  · simp
  · simp
  · rw [if_neg (by omega), if_neg (by omega), if_neg (by omega), if_pos (by omega)]
    simp

/-- Bits [11:9] of a word without A are 0. -/
theorem packWord_noA (op : BitVec 4) (r : Bool) (d : Byte) :
    (packWord op false r d).extractLsb' 9 3 = 0#3 := by
  refine BitVec.eq_of_getLsbD_eq fun i hi => ?_
  rw [BitVec.getLsbD_extractLsb', packWord_getLsbD]
  rcases i with _ | i
  · simp
  · rw [if_neg (by omega), if_neg (by omega), if_neg (by omega), if_pos (by omega)]
    simp

end Sys2Proof

namespace Sys2Proof.Laws.LegalWord

/-- The command's word is legal on the command's port. -/
def Statement (i : Instr) : Prop := Legal i.unit (encode i) = true

theorem encByte (c : Byte) : Statement (.encByte c) := by
  simp [Statement, encode, Legal, packWord_op, packWord_noOptions]

theorem encClose : Statement .encClose := by
  unfold Statement
  decide

theorem encConfig (s : Byte) (r a : Bool) : Statement (.encConfig s r a) := by
  simp [Statement, Instr.unit, encode, Legal, packWord_op, packWord_rsv]

theorem encClear : Statement .encClear := by
  unfold Statement
  decide

theorem decByte (c : Byte) : Statement (.decByte c) := by
  simp [Statement, encode, Legal, packWord_op, packWord_noOptions]

theorem decClose : Statement .decClose := by
  unfold Statement
  decide

theorem decConfig (s : Byte) (r : Bool) : Statement (.decConfig s r) := by
  simp [Statement, Instr.unit, encode, Legal, packWord_op, packWord_noA]

theorem decClear : Statement .decClear := by
  unfold Statement
  decide

end Sys2Proof.Laws.LegalWord
end

