-- ==== Sys2Proof/Tests/Slice0.lean ====
section
/-! SUPPORT. The model's own tests: ill-formed words, words written out from the spec, one-step vectors of
95_test_vectors, and a witness for each statement that has hypotheses. -/

namespace Sys2Proof.Tests

open Sys2Proof Sys2Proof.Machine

/-! ### Ill-formed words, one for each check of rule R73 -/

theorem test_byte_with_r_is_illegal : Legal .enc 0x0100 = false := by decide
theorem test_byte_with_reserved_is_illegal : Legal .dec 0x0800 = false := by decide
theorem test_close_with_operand_is_illegal : Legal .enc 0x1001 = false := by decide
theorem test_clear_with_reserved_is_illegal : Legal .enc 0x3800 = false := by decide
theorem test_enc_config_with_reserved_is_illegal : Legal .enc 0x2400 = false := by decide
theorem test_dec_config_with_a_is_illegal : Legal .dec 0x2200 = false := by decide
theorem test_enc_config_with_a_is_legal : Legal .enc 0x2200 = true := by decide
theorem test_op4_is_illegal : Legal .enc 0x4000 = false := by decide
theorem test_opF_is_illegal : Legal .dec 0xF0FF = false := by decide

/-! ### Words written out bit by bit from rule R73's patterns -/

theorem test_word_enc_byte : decode .enc 0b0000000011111110 = .ok (.encByte 0xFE) := by decide
theorem test_word_enc_close : decode .enc 0b0001000000000000 = .ok .encClose := by decide
theorem test_word_enc_config_r : decode .enc 0b0010000100000101 = .ok (.encConfig 0x05 true false) := by decide
theorem test_word_enc_config_a : decode .enc 0b0010001000000101 = .ok (.encConfig 0x05 false true) := by decide
theorem test_word_enc_clear : decode .enc 0b0011000000000000 = .ok .encClear := by decide
theorem test_word_dec_byte : decode .dec 0b0000000000000001 = .ok (.decByte 0x01) := by decide
theorem test_word_dec_close : decode .dec 0b0001000000000000 = .ok .decClose := by decide
theorem test_word_dec_config : decode .dec 0b0010000111111111 = .ok (.decConfig 0xFF true) := by decide
theorem test_word_dec_clear : decode .dec 0b0011000000000000 = .ok .decClear := by decide
theorem test_word_reserved : decode .enc 0b0010010000000000 = .error .reservedBits := by decide
theorem test_word_unused : decode .dec 0b0010001000000000 = .error .unusedField := by decide
theorem test_table_word : decodeTableWord 16 0x237E = some (.encConfig 0x7E true true) := by decide
theorem test_table_word_dec_port : decodeTableWord 17 0x10041 = some (.decByte 0x41) := by decide

/-! ### One step of each command (95_test_vectors) -/

/-- What a test looks at. -/
structure Seen where
  encStatus : StatusWord
  decStatus : StatusWord
  encOut : List Byte
  encResp : List (BitVec 3)
  decOut : List Byte
  decResp : List (BitVec 3)
  deriving DecidableEq, Repr

/-- What one outcome leaves: ENC.STATUS, DEC.STATUS, and both ports' output and response codes. -/
def seen (o : Host.Outcome State Fault Refusal) : Option Seen :=
  match o with
  | .next t =>
    some ⟨t.enc.status, t.dec.status, t.encPort.outputs, t.encPort.responses.map Response.code,
      t.decPort.outputs, t.decPort.responses.map Response.code⟩
  | .fault _ => none
  | .refused _ => none

/-- ENC with sentinel `s`, options `r` and `a`, and the data bytes `d` in its group. -/
def encWith (s : Byte) (r a : Bool) (d : List Byte) : EncState :=
  ⟨s, r, a, BitVec.ofNat 8 (lengthByte s d.length), BitVec.ofNat 8 d.length, (List.range d.length).zip d, 0⟩

/-- A machine with that encoder. -/
def onEnc (e : EncState) : State := { State.reset with enc := e }

/-- A machine with that decoder. -/
def onDec (d : DecState) : State := { State.reset with dec := d }

/-- A machine with `w` in flight on unit `u` and the host about to collect. -/
def inFlight (u : UnitId) (w : CmdWord) (s : State) : State :=
  { s.setInFlight u (some w) with host := [.collect u] }

/-- P1, step 2: a byte is stored. -/
theorem test_enc_byte_stores :
    seen (exec (.encByte 0x31) (onEnc (encWith 0x00 false true []))) =
      some ⟨0x01020200, 0x00FF0000, [], [0], [], []⟩ := by decide

/-- Rule R103's example: the fourth byte's length byte skips 0x05 (EV12b). -/
theorem test_enc_byte_skips_sentinel :
    seen (exec (.encByte 0x41) (onEnc (encWith 0x05 false false [0x41, 0x41, 0x41]))) =
      some ⟨0x04060005, 0x00FF0000, [], [0], [], []⟩ := by decide

/-- P1, step 7: the sentinel flushes the group. -/
theorem test_enc_byte_sentinel_flushes :
    seen (exec (.encByte 0x00) (onEnc (encWith 0x00 false true [0x31, 0x32, 0x33, 0x34, 0x35]))) =
      some ⟨0x00010200, 0x00FF0000, [0x06, 0x31, 0x32, 0x33, 0x34, 0x35], [0], [], []⟩ := by decide

/-- P1, step 12: the final group and the terminator. -/
theorem test_enc_close_terminates :
    seen (exec .encClose (onEnc (encWith 0x00 false true [0x36, 0x37, 0x38, 0x39]))) =
      some ⟨0x00010200, 0x00FF0000, [0x05, 0x36, 0x37, 0x38, 0x39, 0x00], [0], [], []⟩ := by decide

/-- P3, step 5: the shrunk final group (with one data byte, decision D29) and the terminator. -/
theorem test_enc_close_shrinks :
    seen (exec .encClose (onEnc (encWith 0x80 true true [0xC0]))) =
      some ⟨0x00010380, 0x00FF0000, [0xC0, 0x80], [0], [], []⟩ := by decide

/-- CE7. -/
theorem test_enc_config :
    seen (exec (.encConfig 0x7E true true) (onEnc (encWith 0x00 false false [0x41]))) =
      some ⟨0x0001037E, 0x00FF0000, [], [0], [], []⟩ := by decide

/-- CE11: CLEAR keeps the configuration; the empty group of sentinel 0x01 has length byte 0x02. -/
theorem test_enc_clear :
    seen (exec .encClear (onEnc { encWith 0x01 false false [0x41] with err := 5 })) =
      some ⟨0x00020001, 0x00FF0000, [], [0], [], []⟩ := by decide

/-- P3, DEC step 4: the implied sentinel is rebuilt and 0xBE data bytes are owed. -/
theorem test_dec_byte_length :
    seen (exec (.decByte 0xC0) (onDec ⟨0x80, true, 0x02, 0, 0⟩)) =
      some ⟨0x00010000, 0xBEC00580, [], [], [0x80], [0]⟩ := by decide

/-- CD5, step 2: a sentinel in the middle of a group. -/
theorem test_dec_byte_unexpected_eof :
    seen (exec (.decByte 0x00) (onDec ⟨0x00, false, 0x02, 1, 0⟩)) =
      some ⟨0x00010000, 0x01022400, [], [], [], [2]⟩ := by decide

/-- CD6, step 2. -/
theorem test_dec_close_incomplete :
    seen (exec .decClose (onDec ⟨0x00, false, 0x02, 1, 0⟩)) =
      some ⟨0x00010000, 0x01023400, [], [], [], [3]⟩ := by decide

/-- DR1, its last command: the pending byte is emitted. -/
theorem test_dec_close_reduced :
    seen (exec .decClose (onDec ⟨0x00, true, 0xFF, 0xFD, 0⟩)) =
      some ⟨0x00010000, 0x00FF0100, [], [], [0xFF], [0]⟩ := by decide

/-- CD4. -/
theorem test_dec_config :
    seen (exec (.decConfig 0xFF false) (onDec ⟨0x00, false, 0x02, 1, 2⟩)) =
      some ⟨0x00010000, 0x00FE00FF, [], [], [], [0]⟩ := by decide

/-- Rule R164's example. -/
theorem test_dec_clear :
    seen (exec .decClear (onDec ⟨0x00, false, 0x02, 1, 2⟩)) =
      some ⟨0x00010000, 0x00FF0000, [], [], [], [0]⟩ := by decide

/-- CD7, step 3: an illegal word while halted keeps the first error. -/
theorem test_dec_illegal_keeps_first_error :
    seen (step (inFlight .dec 0x2200 (onDec ⟨0x00, false, 0x02, 1, 2⟩))) =
      some ⟨0x00010000, 0x01022400, [], [], [], [5]⟩ := by decide

/-- CE1, step 2: a halted unit refuses a byte. -/
theorem test_enc_halted :
    seen (step (inFlight .enc 0x0041 (onEnc { encWith 0x00 false false [] with err := 5 }))) =
      some ⟨0x00015000, 0x00FF0000, [], [6], [], []⟩ := by decide

/-- The word placed for the host is the first to run after reset. -/
theorem test_with_fetch_word :
    seen (step (State.reset.withFetchWord 16 0x0041)) =
      some ⟨0x01020000, 0x00FF0000, [], [0], [], []⟩ := by decide

/-- W6 in the assembler's spelling of its payload (rule R88). -/
theorem test_string_literal :
    Asm.parseLine "ENC.FRAME \"12345\\x006789\"".toList =
      some (.encFrame [0x31, 0x32, 0x33, 0x34, 0x35, 0x00, 0x36, 0x37, 0x38, 0x39]) := by decide

/-- A quoted apostrophe and a quoted semicolon are ASCII characters (rule R88; log entry 13); the words are rule R87's. -/
theorem test_quoted_characters :
    Asm.assemble "ENC.CONFIG ''', r=1 ; c".toList = some (.enc, 0x2127) ∧
      Asm.assemble "DEC.BYTE ';' ; 'x".toList = some (.dec, 0x003B) := by decide

/-- A character without an ASCII code and a backslash that begins no escape are refused (log entry 13). -/
theorem test_refused_spellings :
    Asm.assemble ("ENC.BYTE '".toList ++ [Char.ofNat 0xE9] ++ "'".toList) = none ∧
      Asm.parseLine "DEC.WRITE \"\\n\"".toList = none := by decide

/-! ### A model fault stops, it does not return a value (rule R24, rule R51, rule R100, I16) -/

theorem test_read_above_n_faults : (encWith 0x00 false false [0x41]).bufRead 1 = .error .bufReadOutOfRange := by decide
theorem test_write_not_at_n_faults :
    (encWith 0x00 false false [0x41]).bufWrite 0 0x42 = .error .bufWriteOutOfRange := by decide
theorem test_skip_overflow_faults : skipS 0xFF 0xFF = .error .skipOverflow := by decide
theorem test_broken_state_faults : seen (step (onEnc { EncState.reset with n := 1 })) = none := by decide

/-! ### Witnesses: states and operands that meet each statement's hypotheses -/

/-- A group that fills ENC for sentinel 0xFF: 253 data bytes, length byte 0xFE. -/
def fullFF : EncState := encWith 0xFF true false (List.replicate 253 0x41)

/-- A group that fills ENC for sentinel 0x00: 254 data bytes, length byte 0xFF. -/
def full00 : EncState := encWith 0x00 false true (List.replicate 254 0x41)

/-- DEC owing the most data bytes a length byte can declare. -/
def owing : DecState := ⟨0x00, false, 0xFF, 254, 0⟩

theorem test_witness_full : fullFF.Inv ∧ full00.Inv ∧ fullFF.code = maxCode 0xFF ∧ full00.code = maxCode 0x00 := by
  decide +kernel

theorem test_witness_StepRunsDecodedCommand :
    (inFlight .dec 0x2180 State.reset).Inv ∧
    (inFlight .dec 0x2180 State.reset).host = .collect .dec :: [] ∧
    (inFlight .dec 0x2180 State.reset).inFlight .dec = some 0x2180 ∧
    decode .dec 0x2180 = .ok (.decConfig 0x80 true) := by decide

theorem test_witness_StepRaisesOnIllegalWord :
    (inFlight .enc 0x0100 State.reset).Inv ∧ (inFlight .enc 0x0100 State.reset).host = .collect .enc :: [] ∧
    (inFlight .enc 0x0100 State.reset).inFlight .enc = some 0x0100 ∧ Legal .enc 0x0100 = false := by decide

theorem test_witness_OfferFillsOnlyAFreePort :
    State.reset.Inv ∧ State.reset.encPort.inFlight = none ∧ State.reset.decPort.inFlight = none ∧
    (inFlight .enc 0x0041 State.reset).encPort.inFlight ≠ none ∧
    (inFlight .dec 0x0041 State.reset).decPort.inFlight ≠ none := by decide

theorem test_witness_IdleStepHoldsState : State.reset.Inv ∧ State.reset.host = [] := by decide

theorem test_witness_StatusReadHasNoSideEffect :
    State.Inv { (inFlight .enc 0x0041 State.reset) with host := [.readStatus .enc] } ∧
    State.Inv { (onDec { owing with err := 2 }) with host := [.readStatus .dec] } := by decide

theorem test_witness_EncStatusLayout :
    (∀ c r a, Instr.encByte 0x41 ≠ .encConfig c r a) ∧ ∃ t, exec (.encByte 0x41) State.reset = .next t :=
  ⟨fun _ _ _ h => Instr.noConfusion h, _, rfl⟩

theorem test_witness_DecStatusLayout :
    (∀ c r, Instr.decByte 0x41 ≠ .decConfig c r) ∧ ∃ t, exec (.decByte 0x41) State.reset = .next t :=
  ⟨fun _ _ h => Instr.noConfusion h, _, rfl⟩

theorem test_witness_DispatchOrder_running :
    Legal .enc 0x2300 = true ∧ (0x2300 : CmdWord).extractLsb' 12 4 = 2#4 ∧
    Legal .enc 0x3000 = true ∧ (0x3000 : CmdWord).extractLsb' 12 4 = 3#4 ∧
    Legal .dec 0x00FF = true ∧ (0x00FF : CmdWord).extractLsb' 12 4 = 0#4 ∧
    Legal .dec 0x1000 = true ∧ (0x1000 : CmdWord).extractLsb' 12 4 = 1#4 ∧
    State.reset.enc.err = 0 ∧ State.reset.dec.err = 0 := by decide

theorem test_witness_DispatchOrder_halted :
    Legal .enc 0x1000 = true ∧ (0x1000 : CmdWord).extractLsb' 12 4 ≠ 2#4 ∧
    (0x1000 : CmdWord).extractLsb' 12 4 ≠ 3#4 ∧ (onEnc { EncState.reset with err := 5 }).enc.err ≠ 0 ∧
    (onDec { owing with err := 2 }).dec.err ≠ 0 := by decide

theorem test_witness_ResetEventRestartsBlock :
    State.Inv { (onDec owing) with host := [.reset] } ∧ (onDec owing).encPort.inFlight = none ∧
    (onDec owing).decPort.inFlight = none := by decide

theorem test_witness_ResetOnlyBetweenCommands :
    State.Inv { (inFlight .dec 0x0041 State.reset) with host := [.reset] } ∧
    (inFlight .dec 0x0041 State.reset).decPort.inFlight ≠ none ∧
    seen (step { (onDec owing) with host := [.reset] }) = some ⟨0x00010000, 0x00FF0000, [], [], [], []⟩ := by decide

theorem test_witness_IllegalWordRaises :
    Legal .enc 0x4000 = false ∧ Legal .dec 0x2200 = false ∧ State.reset.enc.err = 0 ∧
    (onDec { owing with err := 2 }).dec.err ≠ 0 := by decide

theorem test_witness_HaltedUnitRefusesData :
    (onEnc { EncState.reset with err := 5 }).enc.err ≠ 0 ∧ (onDec { owing with err := 2 }).dec.err ≠ 0 := by decide

theorem test_witness_RaisingIsPrecise :
    (∃ t, dispatchWord .enc 0x4000 State.reset = .next t ∧ t.encPort.log = [⟨[], .errIllegalCmd⟩]) ∧
    (∃ t, dispatchWord .dec 0x1000 (onDec owing) = .next t ∧ t.decPort.log = [⟨[], .errIncompleteFrame⟩]) :=
  ⟨⟨_, rfl, rfl⟩, ⟨_, rfl, rfl⟩⟩

theorem test_witness_ErrorCauses :
    (∃ t, dispatchWord .dec 0x0000 (onDec owing) = .next t ∧ t.decPort.lastResponse = some .errUnexpectedEof) ∧
    (∃ t, dispatchWord .dec 0x1000 (onDec owing) = .next t ∧ t.decPort.lastResponse = some .errIncompleteFrame) ∧
    (∃ t, dispatchWord .dec 0x0000 (onDec ⟨0x05, false, 0xFF, 0, 0⟩) = .next t ∧
      t.decPort.lastResponse = some .errBadLength) ∧
    (∃ t, dispatchWord .enc 0xFFFF State.reset = .next t ∧ t.encPort.lastResponse = some .errIllegalCmd) :=
  ⟨⟨_, rfl, rfl⟩, ⟨_, rfl, rfl⟩, ⟨_, rfl, rfl⟩, ⟨_, rfl, rfl⟩⟩

theorem test_witness_EncByteEffect :
    (onEnc full00).enc.Inv ∧ (onEnc full00).enc.err = 0 ∧ (onEnc fullFF).enc.Inv ∧ (onEnc fullFF).enc.err = 0 ∧
    State.reset.enc.Inv ∧ State.reset.enc.err = 0 := by decide +kernel

theorem test_witness_EncCloseEffect :
    (onEnc (encWith 0x00 true false [0x41, 0x04])).enc.Inv ∧
    (onEnc (encWith 0x00 true false [0x41, 0x04])).enc.data.getLast? = some 0x04 ∧
    (onEnc (encWith 0x00 true false [0x41, 0x04])).enc.code < 0x04 ∧
    (onEnc (encWith 0x00 true false [0x41, 0x03])).enc.Inv ∧
    ¬(onEnc (encWith 0x00 true false [0x41, 0x03])).enc.code < 0x03 := by decide

theorem test_witness_SecondCloseEmitsEmptyFrame :
    State.reset.enc.Inv ∧ State.reset.enc.err = 0 ∧ ∃ t, exec .encClose State.reset = .next t :=
  ⟨by decide, rfl, _, rfl⟩

theorem test_witness_DecTerminatorEffect :
    (onDec { owing with cfgR := true }).dec.err = 0 ∧ (onDec { owing with cfgR := true }).dec.codeIndex ≠ 0 ∧
    (onDec owing).dec.cfgR = false ∧ State.reset.dec.codeIndex = 0 := by decide

theorem test_witness_DecDataByteEffect :
    (onDec owing).dec.err = 0 ∧ (0xFF : Byte) ≠ (onDec owing).dec.cfgS ∧ (onDec owing).dec.codeIndex ≠ 0 ∧
    (onDec ⟨0xFF, false, 0x02, 1, 0⟩).dec.codeIndex ≠ 0 := by decide

theorem test_witness_DecLengthByteEffect :
    State.reset.dec.err = 0 ∧ (0xFF : Byte) ≠ State.reset.dec.cfgS ∧ State.reset.dec.codeIndex = 0 ∧
    (onDec ⟨0x05, false, 0xFF, 0, 0⟩).dec.cfgS ≠ 0x00 ∧ (0x00 : Byte) ≠ (onDec ⟨0x05, false, 0xFF, 0, 0⟩).dec.cfgS ∧
    ¬((onDec ⟨0x05, false, 0xFF, 0, 0⟩).dec.cfgS ≠ 0x00 ∧ (0x06 : Byte) = 0x00) := by decide

theorem test_witness_DecByteIsTotal : State.reset.dec.err = 0 ∧ (onDec owing).dec.err = 0 := by decide

theorem test_witness_DecCloseEffect :
    (onDec { owing with cfgR := true }).dec.err = 0 ∧ (onDec { owing with cfgR := true }).dec.codeIndex ≠ 0 ∧
    (onDec owing).dec.cfgR = false ∧ State.reset.dec.codeIndex = 0 := by decide

theorem test_witness_DecEmitsAtMostOneByte :
    Instr.decClose.unit = .dec ∧ ∃ t, exec .decClose (onDec { owing with cfgR := true }) = .next t := ⟨rfl, _, rfl⟩

theorem test_witness_ReducedModeCannotReportTruncation :
    (onDec { owing with cfgR := true }).dec.cfgR = true ∧
    ∃ t, exec (.decByte 0x00) (onDec { owing with cfgR := true }) = .next t := ⟨rfl, _, rfl⟩

theorem test_witness_CloseAfterEndOfFrameDoesNothing :
    ∃ t, exec (.decByte 0x00) State.reset = .next t ∧ t.decPort.lastResponse = some .endOfFrame := ⟨_, rfl, rfl⟩

theorem test_witness_EncCommandFrame :
    Instr.encClose.unit = .enc ∧ (∀ c r a, Instr.encClose ≠ .encConfig c r a) ∧
    ∃ t, exec .encClose State.reset = .next t := ⟨rfl, fun _ _ _ h => Instr.noConfusion h, _, rfl⟩

theorem test_witness_DecCommandFrame :
    Instr.decClose.unit = .dec ∧ (∀ c r, Instr.decClose ≠ .decConfig c r) ∧
    ∃ t, exec .decClose (onDec owing) = .next t := ⟨rfl, fun _ _ h => Instr.noConfusion h, _, rfl⟩

theorem test_witness_EncByteBufferFrame :
    (∃ t, exec (.encByte 0x42) (onEnc { EncState.reset with err := 5 }) = .next t) ∧
    (∃ t, exec (.encByte 0x42) (onEnc (encWith 0x00 false false [0x41])) = .next t) ∧
    (seen (exec (.encByte 0x42) (onEnc fullFF))).isSome = true ∧
    (∃ t, exec (.encByte 0x00) (onEnc (encWith 0x00 false false [0x41])) = .next t) :=
  ⟨⟨_, rfl⟩, ⟨_, rfl⟩, by decide +kernel, ⟨_, rfl⟩⟩

theorem test_witness_ConfigurationChangesOnlyByConfigOrReset :
    (∃ t, step (inFlight .enc 0x2105 State.reset) = .next t ∧ t.enc.cfgS ≠ 0x00) ∧
    (∃ t, step (inFlight .dec 0x2105 State.reset) = .next t ∧ t.dec.cfgR ≠ false) :=
  ⟨⟨_, rfl, by decide⟩, ⟨_, rfl, by decide⟩⟩

theorem test_witness_ClearAndConfigAreIdempotent :
    (∃ t, exec .encClear (onEnc fullFF) = .next t) ∧ (∃ t, exec (.decConfig 0xFF true) (onDec owing) = .next t) :=
  ⟨⟨_, rfl⟩, ⟨_, rfl⟩⟩

theorem test_witness_StepKeepsGood :
    (inFlight .dec 0x0041 (onDec owing)).Good ∧ ∃ t, step (inFlight .dec 0x0041 (onDec owing)) = .next t :=
  ⟨by decide, _, rfl⟩

theorem test_witness_ReachableStatesNeverFault : Reachable (inFlight .enc 0x2105 State.reset) :=
  .step (.start [.offer .enc 0x2105, .collect .enc]) rfl

theorem test_witness_CommandsKeepBufferForm :
    (onEnc (encWith 0x00 false false [0x41])).enc.buf.wf ∧
    ∃ t, exec (.encByte 0x42) (onEnc (encWith 0x00 false false [0x41])) = .next t := ⟨by decide, _, rfl⟩

theorem test_witness_StepKeepsErrorsReported :
    State.ErrReported (inFlight .enc 0x4000 State.reset) ∧ ∃ t, step (inFlight .enc 0x4000 State.reset) = .next t :=
  ⟨by decide, _, rfl⟩

theorem test_witness_LengthByteOfGroup :
    254 ≤ maxData 0x00 ∧ 253 ≤ maxData 0xFF ∧ 0 < 1 ∧ 1 ≤ maxData 0x01 := by decide

theorem test_witness_DataCountInvertsLengthByte :
    (1 ≤ (0xFE : Byte).toNat ∧ (0xFE : Byte).toNat ≤ (maxCode 0xFF).toNat ∧ (0xFE : Byte) ≠ 0xFF) ∧
    ¬(1 ≤ (0xFF : Byte).toNat ∧ (0xFF : Byte).toNat ≤ (maxCode 0xFF).toNat ∧ (0xFF : Byte) ≠ 0xFF) := by decide

/-- A run of unequal bytes, `n + 1` long. -/
def mixedRun (n : Nat) : List Byte := 0x42 :: List.replicate n 0x41

theorem mixedRun_meets {s : Byte} {n : Nat} (h : n + 1 = maxData s) (h1 : s ≠ 0x41) (h2 : s ≠ 0x42) :
    s ∉ mixedRun n ∧ (mixedRun n).length = maxData s ∧ 0x41 ≠ s := by
  refine ⟨fun hm => ?_, ?_, h1.symm⟩
  · rcases List.mem_cons.mp hm with hm | hm
    · exact h2 hm
    · exact h1 (List.eq_of_mem_replicate hm)
  · rw [mixedRun, List.length_cons, List.length_replicate, h]

/-- Runs of `M(s)` bytes, at both values of `M(s)`. -/
theorem test_witness_BoundaryFrames :
    (0x00 ∉ mixedRun 253 ∧ (mixedRun 253).length = maxData 0x00 ∧ (0x41 : Byte) ≠ 0x00) ∧
    (0xFF ∉ mixedRun 252 ∧ (mixedRun 252).length = maxData 0xFF ∧ (0x41 : Byte) ≠ 0xFF) :=
  ⟨mixedRun_meets rfl (by decide) (by decide), mixedRun_meets rfl (by decide) (by decide)⟩

theorem test_witness_OutputLengthBound : (0x05 : Byte) ∉ ([0x41, 0x42] : List Byte) := by decide

theorem test_witness_LockStepEqualsEncFirst : ∀ i ∈ encFrameCommands [0x41, 0x00], i.unit = .enc := by decide

theorem test_witness_LoopbackDeliversFrame :
    (onEnc (encWith 0x00 false true [])).enc.Inv ∧ (onEnc (encWith 0x00 false true [])).enc.n = 0 ∧
    (onEnc (encWith 0x00 false true [])).enc.cfgA = true ∧ State.reset.dec.code = maxCode State.reset.dec.cfgS ∧
    State.reset.dec.codeIndex = 0 := by decide

end Sys2Proof.Tests
end

/-! PROOFS. The state's own statements (10_state): what a completed command can leave in each unit, said once and from any
state; the two status words read field by field; and the invariants every step keeps. -/

namespace Sys2Proof.Machine

/-! ### What an ENC operation leaves, from any state -/

/-- A sequence answers only when its first part does, and then its rest. -/
theorem except_bind_ok {α β : Type} {x : Except Fault α} {f : α → Except Fault β} {r : β} (h : x >>= f = .ok r) :
    ∃ a, x = .ok a ∧ f a = .ok r := by
  cases x with
  | ok a => exact ⟨a, rfl, h⟩
  | error _ => cases h

section EncoderOperations
variable {e e' : EncState} {c : Byte}

theorem EncState.flushGroup_st {out : List Byte} (h : e.flushGroup = .ok (e', out)) : e' = e.emptied := by
  obtain ⟨bs, -, h⟩ := except_bind_ok h
  rw [e.initGroup_ok] at h
  cases h
  rfl

/-- Step 1 of `ENC.BYTE` empties a full group and leaves any other as it is (rule R103). -/
theorem EncState.flushIfFull_st {out : List Byte} (h : e.flushIfFull = .ok (e', out)) :
    e' = e.emptied ∨ e' = e ∧ e.code ≠ maxCode e.cfgS := by
  unfold EncState.flushIfFull at h
  split at h
  case isTrue => exact .inl (EncState.flushGroup_st h)
  case isFalse hf =>
    cases h
    exact .inr ⟨rfl, hf⟩

theorem EncState.bufWrite_st {i : Nat} (h : e.bufWrite i c = .ok e') :
    i < Config.bufEntries ∧ e' = { e with buf := e.buf.write i c } := by
  unfold EncState.bufWrite at h
  split at h
  case isTrue hi =>
    cases h
    exact ⟨hi.1, rfl⟩
  case isFalse => cases h

/-- Step 3 of `ENC.BYTE` writes one entry inside the buffer and moves `n` and `code` (rule R103). -/
theorem EncState.append_st (h : e.append c = .ok e') :
    e.n.toNat < Config.bufEntries ∧
      ∃ n code, e' = { e with n := n, code := code, buf := e.buf.write e.n.toNat c } := by
  obtain ⟨e1, hw, h⟩ := except_bind_ok h
  obtain ⟨n, -, h⟩ := except_bind_ok h
  obtain ⟨k, -, h⟩ := except_bind_ok h
  obtain ⟨code, -, h⟩ := except_bind_ok h
  obtain ⟨hi, rfl⟩ := EncState.bufWrite_st hw
  cases h
  exact ⟨hi, n, code, rfl⟩

/-- `ENC.BYTE` empties the group at the sentinel; any other byte is appended to the group step 1 leaves (rule R103). -/
theorem EncState.byte_st {d : Done EncState} (h : e.byte c = .ok d) :
    d.st = e.emptied ∨
    ∃ e1, (e1 = e.emptied ∨ e1 = e ∧ e.code ≠ maxCode e.cfgS) ∧ c ≠ e1.cfgS ∧ e1.append c = .ok d.st := by
  obtain ⟨⟨e1, out1⟩, hf, h⟩ := except_bind_ok h
  have h1 := EncState.flushIfFull_st hf
  dsimp only at h
  split at h
  case isTrue =>
    obtain ⟨⟨e2, out2⟩, hg, h⟩ := except_bind_ok h
    obtain rfl := EncState.flushGroup_st hg
    cases h
    obtain rfl | ⟨rfl, -⟩ := h1 <;> exact .inl rfl
  case isFalse hc =>
    obtain ⟨e2, ha, h⟩ := except_bind_ok h
    cases h
    exact .inr ⟨e1, h1, hc, ha⟩

theorem EncState.close_st {d : Done EncState} (h : e.close = .ok d) : d.st = e.emptied := by
  obtain ⟨group, -, h⟩ := except_bind_ok h
  rw [e.initGroup_ok] at h
  cases h
  rfl

end EncoderOperations

/-! ### What a completed command leaves in each unit, from any state -/

/-- The states a completed command `i` can leave ENC in, from `e` (rule R103, rule R104, rule R160 to rule R162). -/
inductive EncNext (i : Instr) (e : EncState) : EncState → Prop where
  /-- A DEC command, or BYTE or CLOSE on a halted unit. -/
  | kept : EncNext i e e
  /-- The group has gone out and an empty one is begun. -/
  | emptied : EncNext i e e.emptied
  /-- A byte has joined the group that step 1 of BYTE left. -/
  | appended {e1 e' : EncState} {c : Byte} :
      (e1 = e.emptied ∨ e1 = e ∧ e.code ≠ maxCode e.cfgS) → c ≠ e1.cfgS → e1.append c = .ok e' → EncNext i e e'
  /-- CLEAR: as emptied, and no error. -/
  | cleared : EncNext i e { e.emptied with err := 0 }
  /-- CONFIG: the operands, an empty group and no error. -/
  | configured {s : Byte} {r a : Bool} :
      i = .encConfig s r a → EncNext i e ⟨s, r, a, freshCode s, 0, [], 0⟩

/-- The states a completed command `i` can leave DEC in, from `d` (rule R131 to rule R135, rule R160, rule R163, rule
R164). -/
inductive DecNext (i : Instr) (d : DecState) : DecState → Prop where
  /-- An ENC command, or BYTE or CLOSE on a halted unit. -/
  | kept : DecNext i d d
  /-- A frame has ended and the unit waits for the next. -/
  | restarted : DecNext i d d.initFrame
  /-- An error of the codes 2 to 5 has been raised. -/
  | raised {r : Response} : r.isError = true → DecNext i d (d.raise r).st
  /-- A data byte has been passed on. -/
  | dataByte : d.codeIndex ≠ 0 → DecNext i d { d with codeIndex := d.codeIndex - 1 }
  /-- A length byte has begun a group. -/
  | lengthByte {c k : Byte} :
      c ≠ d.cfgS → dataCount d.cfgS c = some k.toNat → DecNext i d { d with code := c, codeIndex := k }
  /-- CLEAR: as at frame start, and no error. -/
  | cleared : DecNext i d d.clear.st
  /-- CONFIG: the operands, frame start and no error. -/
  | configured {s : Byte} {r : Bool} : i = .decConfig s r → DecNext i d (d.config s r).st

theorem EncState.unlessHalted_st {e : EncState} {r : Except Fault (Done EncState)} {d : Done EncState}
    (h : e.unlessHalted r = .ok d) : d.st = e ∨ r = .ok d := by
  unfold EncState.unlessHalted at h
  split at h
  case isTrue =>
    cases h
    exact .inl rfl
  case isFalse => exact .inr h

theorem DecState.unlessHalted_st {e : DecState} {r : Except Fault (Done DecState)} {d : Done DecState}
    (h : e.unlessHalted r = .ok d) : d.st = e ∨ r = .ok d := by
  unfold DecState.unlessHalted at h
  split at h
  case isTrue =>
    cases h
    exact .inl rfl
  case isFalse => exact .inr h

/-- An ENC command leaves DEC alone (rule R60). -/
theorem exec_keeps_dec {i : Instr} {s t : State} (hu : i.unit = .enc) (h : exec i s = .next t) : t.dec = s.dec := by
  obtain ⟨-, r, hr⟩ | ⟨hu', -⟩ := exec_cases i s
  · obtain ⟨d, -, rfl⟩ := finishEnc_next (hr.symm.trans h)
    rfl
  · exact absurd (hu.symm.trans hu') (by decide)

/-- A DEC command leaves ENC alone (rule R60). -/
theorem exec_keeps_enc {i : Instr} {s t : State} (hu : i.unit = .dec) (h : exec i s = .next t) : t.enc = s.enc := by
  obtain ⟨hu', -⟩ | ⟨-, r, hr⟩ := exec_cases i s
  · exact absurd (hu.symm.trans hu') (by decide)
  · obtain ⟨d, -, rfl⟩ := finishDec_next (hr.symm.trans h)
    rfl

/-- A terminator restarts the unit or raises the error of an unfinished frame (rule R132). -/
theorem DecState.terminatorCase_next (i : Instr) (d : DecState) : DecNext i d d.terminatorCase.st := by
  rw [d.terminatorCase_eq]
  split_ifs with hk
  · have : d.initFrame = { d with code := maxCode d.cfgS } := by simp [DecState.initFrame, hk]
    exact this ▸ .restarted
  · exact .restarted
  · exact .raised rfl

/-- CLOSE restarts the unit or raises the error of an unfinished frame (rule R135). -/
theorem DecState.close_next (i : Instr) (d : DecState) : DecNext i d d.close.st := by
  rw [d.close_eq]
  split_ifs
  · exact .restarted
  · exact .restarted
  · exact .raised rfl

theorem DecState.byte_next (i : Instr) {d : DecState} {c : Byte} {r : Done DecState} (h : d.byte c = .ok r) :
    DecNext i d r.st := by
  obtain ⟨-, hb⟩ | ⟨-, hk, hb⟩ | ⟨-, -, -, -, hb⟩ | ⟨hc, -, -, k, hd, hb⟩ := d.byte_cases c
  all_goals rw [hb] at h; cases h
  · exact d.terminatorCase_next i
  · exact .dataByte hk
  · exact .raised rfl
  · exact .lengthByte hc hd

theorem EncState.byte_next (i : Instr) {e : EncState} {c : Byte} {r : Done EncState} (h : e.byte c = .ok r) :
    EncNext i e r.st := by
  obtain hs | ⟨e1, h1, hc, ha⟩ := EncState.byte_st h
  · exact hs ▸ .emptied
  · exact .appended h1 hc ha

/-- A completed command leaves ENC in one of the states of `EncNext`. -/
theorem exec_encNext {i : Instr} {s t : State} (h : exec i s = .next t) : EncNext i s.enc t.enc := by
  cases i with
  | encByte c =>
    obtain ⟨d, hd, rfl⟩ := finishEnc_next h
    obtain hk | hb := EncState.unlessHalted_st hd
    · exact hk ▸ .kept
    · exact EncState.byte_next _ hb
  | encClose =>
    obtain ⟨d, hd, rfl⟩ := finishEnc_next h
    obtain hk | hb := EncState.unlessHalted_st hd
    · exact hk ▸ .kept
    · exact EncState.close_st hb ▸ .emptied
  | encConfig c r a =>
    obtain ⟨d, hd, rfl⟩ := finishEnc_next h
    rw [EncState.config_ok] at hd
    cases hd
    exact .configured rfl
  | encClear =>
    obtain ⟨d, hd, rfl⟩ := finishEnc_next h
    rw [EncState.clear_ok] at hd
    cases hd
    exact .cleared
  | decByte c => exact exec_keeps_enc rfl h ▸ .kept
  | decClose => exact exec_keeps_enc rfl h ▸ .kept
  | decConfig c r => exact exec_keeps_enc rfl h ▸ .kept
  | decClear => exact exec_keeps_enc rfl h ▸ .kept

/-- A completed command leaves DEC in one of the states of `DecNext`. -/
theorem exec_decNext {i : Instr} {s t : State} (h : exec i s = .next t) : DecNext i s.dec t.dec := by
  cases i with
  | encByte c => exact exec_keeps_dec rfl h ▸ .kept
  | encClose => exact exec_keeps_dec rfl h ▸ .kept
  | encConfig c r a => exact exec_keeps_dec rfl h ▸ .kept
  | encClear => exact exec_keeps_dec rfl h ▸ .kept
  | decByte c =>
    obtain ⟨d, hd, rfl⟩ := finishDec_next h
    obtain hk | hb := DecState.unlessHalted_st hd
    · exact hk ▸ .kept
    · exact DecState.byte_next _ hb
  | decClose =>
    obtain ⟨d, hd, rfl⟩ := finishDec_next h
    obtain hk | hb := DecState.unlessHalted_st hd
    · exact hk ▸ .kept
    · cases hb
      exact s.dec.close_next _
  | decConfig c r =>
    cases h
    exact .configured rfl
  | decClear =>
    cases h
    exact .cleared

/-! ### Good states -/

/-- ENC's part of a good state (rule R23, rule R202). -/
def EncState.Good (e : EncState) : Prop := e.Inv ∧ (e.err = 0 ∨ e.err = Response.errIllegalCmd.code)

/-- DEC's part of a good state: its `err` is 0 or the code of an error (rule R31, rule R202). -/
def DecState.Good (d : DecState) : Prop := d.Inv ∧ (d.err = 0 ∨ ∃ r : Response, r.isError = true ∧ d.err = r.code)

/-- The errors of DEC are all four errors there are (rule R202). -/
theorem exists_isError_code_iff (x : BitVec 3) :
    (∃ r : Response, r.isError = true ∧ x = r.code) ↔
      x = Response.errUnexpectedEof.code ∨ x = Response.errIncompleteFrame.code ∨
        x = Response.errBadLength.code ∨ x = Response.errIllegalCmd.code := by
  constructor
  · rintro ⟨r, hr, rfl⟩
    cases r <;> simp [Response.isError] at hr ⊢
  · rintro (rfl | rfl | rfl | rfl) <;> exact ⟨_, rfl, rfl⟩

theorem State.good_iff (s : State) : s.Good ↔ s.enc.Good ∧ s.dec.Good := by
  rw [EncState.Good, DecState.Good, exists_isError_code_iff]
  exact and_and_and_comm

theorem EncState.reset_good : EncState.reset.Good := ⟨EncState.emptied_inv EncState.reset, .inl rfl⟩

theorem DecState.reset_good : DecState.reset.Good := ⟨DecState.initFrame_inv DecState.reset, .inl rfl⟩

theorem EncState.raise_good {e : EncState} (h : e.Good) : (e.raise .errIllegalCmd).st.Good := by
  obtain ⟨hi, he⟩ := h
  refine ⟨EncState.inv_with_err hi _, ?_⟩
  obtain he | he := he <;> simp [keepFirst, he]

theorem DecState.raise_good {d : DecState} (h : d.Good) {r : Response} (hr : r.isError = true) :
    (d.raise r).st.Good := by
  obtain ⟨hi, he⟩ := h
  refine ⟨DecState.inv_with_err hi _, ?_⟩
  by_cases h0 : d.err = 0
  · exact .inr ⟨r, hr, by simp [keepFirst, h0]⟩
  · rw [DecState.raise_st, keepFirst, if_neg h0]
    exact he

/-- Step 3 of `ENC.BYTE` keeps a unit good, after step 1 has made room (rule R23, rule R103). -/
theorem EncState.append_good {e e' : EncState} {c : Byte} (h : e.Good) (hf : e.code ≠ maxCode e.cfgS)
    (hc : c ≠ e.cfgS) (ha : e.append c = .ok e') : e'.Good := by
  obtain ⟨hi, he⟩ := h
  rw [EncState.inv_append_ok hi hf] at ha
  cases ha
  exact ⟨EncState.inv_pushed_inv hi hf hc, he⟩

theorem EncState.emptied_good {e : EncState} (h : e.Good) : e.emptied.Good := ⟨e.emptied_inv, h.2⟩

/-- An empty group is never full (rule R23, rule R80). -/
theorem EncState.emptied_not_full (e : EncState) : e.emptied.code ≠ maxCode e.emptied.cfgS := by
  rw [ne_eq, EncState.inv_full_iff e.emptied_inv]
  change ¬ 0 = maxData e.cfgS
  unfold maxData
  split <;> omega

theorem EncNext.good {i : Instr} {e e' : EncState} (h : EncNext i e e') (hg : e.Good) : e'.Good := by
  cases h with
  | kept => exact hg
  | emptied => exact EncState.emptied_good hg
  | appended h1 hc ha =>
    obtain rfl | ⟨rfl, hf⟩ := h1
    · exact EncState.append_good (EncState.emptied_good hg) e.emptied_not_full hc ha
    · exact EncState.append_good hg hf hc ha
  | cleared => exact ⟨e.emptied_inv, .inl rfl⟩
  | @configured s r a _ => exact ⟨EncState.emptied_inv ⟨s, r, a, 0, 0, [], 0⟩, .inl rfl⟩

theorem DecNext.good {i : Instr} {d d' : DecState} (h : DecNext i d d') (hg : d.Good) : d'.Good := by
  cases h with
  | kept => exact hg
  | restarted => exact ⟨d.initFrame_inv, hg.2⟩
  | raised hr => exact DecState.raise_good hg hr
  | dataByte hk => exact ⟨DecState.inv_dataByte hg.1 hk, hg.2⟩
  | lengthByte hc hk => exact ⟨DecState.inv_lengthByte hc hk, hg.2⟩
  | cleared => exact ⟨DecState.initFrame_inv _, .inl rfl⟩
  | configured => exact ⟨DecState.initFrame_inv _, .inl rfl⟩

/-- A dispatched word keeps the state good: as its command does, or as raising `ERR_ILLEGAL_CMD` does (rule R160). -/
theorem dispatchWord_good {u : UnitId} {w : CmdWord} {s t : State} (hg : s.Good) (h : dispatchWord u w s = .next t) :
    t.Good := by
  rw [State.good_iff] at hg ⊢
  obtain ⟨he, hd⟩ := hg
  obtain ⟨i, -, -, hw⟩ | ⟨-, hw⟩ := dispatchWord_cases u w s
  · rw [hw] at h
    exact ⟨(exec_encNext h).good he, (exec_decNext h).good hd⟩
  · rw [hw] at h
    cases u with
    | enc =>
      cases h
      exact ⟨EncState.raise_good he, hd⟩
    | dec =>
      cases h
      exact ⟨he, DecState.raise_good hd rfl⟩

/-- Settles O44: each of the host's moves leaves the units as they were, runs a command, raises `ERR_ILLEGAL_CMD`, or
resets both. -/
theorem stepKeepsGood : Obligations.StepKeepsGood := by
  intro s t hg h
  obtain ⟨-, ⟨-, rfl⟩ | ⟨rest, hm⟩⟩ := step_cases h
  · exact hg
  · obtain ⟨u, w, -, -, rfl⟩ | ⟨u, w, -, -, hw⟩ | ⟨u, -, rfl⟩ | ⟨-, -, -, rfl⟩ := hm
    · simpa [State.good_iff] using hg
    · exact dispatchWord_good (by simpa [State.good_iff] using hg) hw
    · exact hg
    · exact (State.good_iff _).mpr ⟨EncState.reset_good, DecState.reset_good⟩

/-- Settles O43: reset is an empty group and a frame start, with `err` 0 on both units. -/
theorem resetIsGood : Obligations.ResetIsGood :=
  ⟨(State.good_iff _).mpr ⟨EncState.reset_good, DecState.reset_good⟩, fun h => absurd rfl h, fun h => absurd rfl h⟩

/-- Settles O15: each field is the one `State.reset` lists, and the empty buffer reads as nothing. -/
theorem resetValues : Obligations.ResetValues :=
  ⟨rfl, rfl, rfl, rfl, rfl, Memory.read_nil, rfl, rfl, rfl, rfl, rfl, rfl⟩

/-! ### The group buffer's form -/

theorem EncState.append_buf_wf {e e' : EncState} {c : Byte} (h : e.append c = .ok e') (hw : e.buf.wf) :
    e'.buf.wf := by
  obtain ⟨hi, n, code, rfl⟩ := EncState.append_st h
  exact Memory.wf_write hi hw

/-- Settles O47: a command empties the buffer, writes one entry inside it, or leaves it alone. -/
theorem commandsKeepBufferForm : Obligations.CommandsKeepBufferForm := by
  intro i s t hw h
  have hn := exec_encNext h
  generalize t.enc = e' at hn ⊢
  cases hn with
  | kept => exact hw
  | emptied => exact Memory.wf_nil
  | appended h1 _ ha =>
    obtain rfl | ⟨rfl, -⟩ := h1
    · exact EncState.append_buf_wf ha Memory.wf_nil
    · exact EncState.append_buf_wf ha hw
  | cleared => exact Memory.wf_nil
  | configured => exact Memory.wf_nil

/-! ### The status words -/

/-- ENC.STATUS field by field (rule R26). -/
theorem EncState.status_fields (e : EncState) :
    e.status.extractLsb' 0 8 = e.cfgS ∧ e.status.getLsbD 8 = e.cfgR ∧ e.status.getLsbD 9 = e.cfgA ∧
    e.status.extractLsb' 10 2 = 0 ∧ e.status.extractLsb' 12 3 = e.err ∧ e.status.getLsbD 15 = false ∧
    e.status.extractLsb' 16 8 = e.code ∧ e.status.extractLsb' 24 8 = e.n := by
  unfold EncState.status
  simp [↓BitVec.extractLsb'_append_eq_ite, ↓BitVec.getLsbD_append]

/-- DEC.STATUS field by field (rule R33, rule R34). -/
theorem DecState.status_fields (d : DecState) :
    d.status.extractLsb' 0 8 = d.cfgS ∧ d.status.getLsbD 8 = d.cfgR ∧ d.status.getLsbD 9 = false ∧
    (d.status.getLsbD 10 = true ↔ d.codeIndex ≠ 0) ∧ d.status.getLsbD 11 = false ∧
    d.status.extractLsb' 12 3 = d.err ∧ d.status.getLsbD 15 = false ∧
    d.status.extractLsb' 16 8 = d.code ∧ d.status.extractLsb' 24 8 = d.codeIndex := by
  unfold DecState.status
  simp [↓BitVec.extractLsb'_append_eq_ite, ↓BitVec.getLsbD_append, DecState.needsMore]

/-- Bits [9:0] of ENC.STATUS are the configuration. -/
theorem EncState.status_config (e : EncState) :
    e.status.extractLsb' 0 10 = BitVec.ofBool e.cfgA ++ BitVec.ofBool e.cfgR ++ e.cfgS := by
  unfold EncState.status
  simp [↓BitVec.extractLsb'_append_eq_ite]

/-- Bits [8:0] of DEC.STATUS are the configuration. -/
theorem DecState.status_config (d : DecState) :
    d.status.extractLsb' 0 9 = BitVec.ofBool d.cfgR ++ d.cfgS := by
  unfold DecState.status
  simp [↓BitVec.extractLsb'_append_eq_ite]

/-- Only ENC.CONFIG writes ENC's configuration (rule R166). -/
theorem EncNext.config_kept {i : Instr} {e e' : EncState} (h : EncNext i e e') (hi : ∀ c r a, i ≠ .encConfig c r a) :
    e'.cfgS = e.cfgS ∧ e'.cfgR = e.cfgR ∧ e'.cfgA = e.cfgA := by
  cases h with
  | kept => exact ⟨rfl, rfl, rfl⟩
  | emptied => exact ⟨rfl, rfl, rfl⟩
  | appended h1 _ ha =>
    obtain ⟨-, n, code, rfl⟩ := EncState.append_st ha
    obtain rfl | ⟨rfl, -⟩ := h1 <;> exact ⟨rfl, rfl, rfl⟩
  | cleared => exact ⟨rfl, rfl, rfl⟩
  | configured h => exact absurd h (hi _ _ _)

/-- Only DEC.CONFIG writes DEC's configuration (rule R166). -/
theorem DecNext.config_kept {i : Instr} {d d' : DecState} (h : DecNext i d d') (hi : ∀ c r, i ≠ .decConfig c r) :
    d'.cfgS = d.cfgS ∧ d'.cfgR = d.cfgR := by
  cases h with
  | configured h => exact absurd h (hi _ _)
  | _ => exact ⟨rfl, rfl⟩

/-- Settles O12: the word read field by field, and bits [9:0] are fields that no other command writes. -/
theorem encStatusLayout : Obligations.EncStatusLayout := by
  refine ⟨EncState.status_fields, rfl, fun i s t hi h => ?_⟩
  obtain ⟨hs, hr, ha⟩ := (exec_encNext h).config_kept hi
  rw [EncState.status_config, EncState.status_config, hs, hr, ha]

/-- Settles O13: the word read field by field, and bits [8:0] are fields that no other command writes. -/
theorem decStatusLayout : Obligations.DecStatusLayout := by
  refine ⟨DecState.status_fields, rfl, fun i s t hi h => ?_⟩
  obtain ⟨hs, hr⟩ := (exec_decNext h).config_kept hi
  rw [DecState.status_config, DecState.status_config, hs, hr]

end Sys2Proof.Machine

/-! PROOFS. The memory and port statements (20_memory): no step from a good state faults; what a command on one unit leaves
alone; the group buffer entry by entry; and that the two units share nothing. -/

namespace Sys2Proof.Machine

/-! ### A command completes -/

theorem finishEnc_completes (s : State) {r : Except Fault (Done EncState)} (h : ∃ d, r = .ok d) :
    ∃ t, finishEnc s r = .next t := by
  obtain ⟨d, rfl⟩ := h
  exact ⟨_, rfl⟩

theorem finishDec_completes (s : State) {r : Except Fault (Done DecState)} (h : ∃ d, r = .ok d) :
    ∃ t, finishDec s r = .next t := by
  obtain ⟨d, rfl⟩ := h
  exact ⟨_, rfl⟩

theorem EncState.unlessHalted_completes (e : EncState) {r : Except Fault (Done EncState)} (h : ∃ d, r = .ok d) :
    ∃ d, e.unlessHalted r = .ok d := by
  unfold EncState.unlessHalted
  split
  case isTrue => exact ⟨_, rfl⟩
  case isFalse => exact h

theorem DecState.unlessHalted_completes (d : DecState) {r : Except Fault (Done DecState)} (h : ∃ x, r = .ok x) :
    ∃ x, d.unlessHalted r = .ok x := by
  unfold DecState.unlessHalted
  split
  case isTrue => exact ⟨_, rfl⟩
  case isFalse => exact h

theorem DecState.byte_completes (d : DecState) (c : Byte) : ∃ r, d.byte c = .ok r := by
  obtain ⟨-, h⟩ | ⟨-, -, h⟩ | ⟨-, -, -, -, h⟩ | ⟨-, -, -, k, -, h⟩ := d.byte_cases c <;> exact ⟨_, h⟩

/-- An ENC command reads and writes its own unit alone (rule R60), and completes under rule R23. -/
theorem exec_enc_local {i : Instr} (hu : i.unit = .enc) :
    ∃ f : EncState → Except Fault (Done EncState),
      (∀ e : EncState, e.Inv → ∃ d, f e = .ok d) ∧ ∀ s, exec i s = finishEnc s (f s.enc) := by
  cases i with
  | encByte c =>
    exact ⟨fun e => e.unlessHalted (e.byte c),
      fun e h => e.unlessHalted_completes ⟨_, EncState.inv_byte_ok h c⟩, fun _ => rfl⟩
  | encClose =>
    exact ⟨fun e => e.unlessHalted e.close,
      fun e h => e.unlessHalted_completes ⟨_, EncState.inv_close_ok h⟩, fun _ => rfl⟩
  | encConfig c r a => exact ⟨fun e => e.config c r a, fun e _ => ⟨_, e.config_ok c r a⟩, fun _ => rfl⟩
  | encClear => exact ⟨EncState.clear, fun e _ => ⟨_, e.clear_ok⟩, fun _ => rfl⟩
  | decByte _ => cases hu
  | decClose => cases hu
  | decConfig _ _ => cases hu
  | decClear => cases hu

/-- A DEC command reads and writes its own unit alone (rule R60), and completes from any state. -/
theorem exec_dec_local {i : Instr} (hu : i.unit = .dec) :
    ∃ f : DecState → Except Fault (Done DecState),
      (∀ d : DecState, ∃ x, f d = .ok x) ∧ ∀ s, exec i s = finishDec s (f s.dec) := by
  cases i with
  | encByte _ => cases hu
  | encClose => cases hu
  | encConfig _ _ _ => cases hu
  | encClear => cases hu
  | decByte c =>
    exact ⟨fun d => d.unlessHalted (d.byte c), fun d => d.unlessHalted_completes (d.byte_completes c), fun _ => rfl⟩
  | decClose =>
    exact ⟨fun d => d.unlessHalted (.ok d.close), fun d => d.unlessHalted_completes ⟨_, rfl⟩, fun _ => rfl⟩
  | decConfig c r => exact ⟨fun d => .ok (d.config c r), fun _ => ⟨_, rfl⟩, fun _ => rfl⟩
  | decClear => exact ⟨fun d => .ok d.clear, fun _ => ⟨_, rfl⟩, fun _ => rfl⟩

/-- A word on the ENC port reads and writes ENC alone, legal or not, and completes under rule R23. -/
theorem dispatchWord_enc_local (w : CmdWord) :
    ∃ f : EncState → Except Fault (Done EncState),
      (∀ e : EncState, e.Inv → ∃ d, f e = .ok d) ∧ ∀ s, dispatchWord .enc w s = finishEnc s (f s.enc) := by
  unfold dispatchWord
  cases h : decode .enc w with
  | ok i => exact exec_enc_local (decode_unit h)
  | error _ => exact ⟨fun e => .ok (e.raise .errIllegalCmd), fun _ _ => ⟨_, rfl⟩, fun _ => rfl⟩

/-- A word on the DEC port reads and writes DEC alone, legal or not, and completes from any state. -/
theorem dispatchWord_dec_local (w : CmdWord) :
    ∃ f : DecState → Except Fault (Done DecState),
      (∀ d : DecState, ∃ x, f d = .ok x) ∧ ∀ s, dispatchWord .dec w s = finishDec s (f s.dec) := by
  unfold dispatchWord
  cases h : decode .dec w with
  | ok i => exact exec_dec_local (decode_unit h)
  | error _ => exact ⟨fun d => .ok (d.raise .errIllegalCmd), fun _ => ⟨_, rfl⟩, fun _ => rfl⟩

theorem dispatchWord_completes (u : UnitId) (w : CmdWord) {s : State} (h : s.enc.Inv) :
    ∃ t, dispatchWord u w s = .next t := by
  cases u with
  | enc =>
    obtain ⟨f, hf, hw⟩ := dispatchWord_enc_local w
    exact hw s ▸ finishEnc_completes s (hf s.enc h)
  | dec =>
    obtain ⟨f, hf, hw⟩ := dispatchWord_dec_local w
    exact hw s ▸ finishDec_completes s (hf s.dec)

/-! ### The host's moves -/

section HostMoves
variable {s : State} {u : UnitId} {w : CmdWord} {m : HostMove} {rest : List HostMove}

@[simp] theorem State.inFlight_withHost (s : State) (rest : List HostMove) (u : UnitId) :
    State.inFlight { s with host := rest } u = s.inFlight u := by cases u <;> rfl

/-- With the invariants met a step is the host's next move, taken off its list. -/
theorem step_of_host (h : s.Inv) (hm : s.host = m :: rest) : step s = perform m { s with host := rest } := by
  unfold step stepCore
  rw [if_neg (not_not_intro h.1), if_neg (not_not_intro h.2), hm]

theorem step_of_idle (h : s.Inv) (hm : s.host = []) : step s = .next s := by
  unfold step stepCore
  rw [if_neg (not_not_intro h.1), if_neg (not_not_intro h.2), hm]

theorem State.offer_free (h : s.inFlight u = none) : s.offer u w = .next (s.setInFlight u (some w)) := by
  unfold State.offer
  rw [h]

theorem State.offer_busy (h : s.inFlight u ≠ none) : s.offer u w = .refused .portBusy := by
  obtain ⟨v, hv⟩ := Option.ne_none_iff_exists'.mp h
  unfold State.offer
  rw [hv]

theorem State.collect_inFlight (h : s.inFlight u = some w) :
    s.collect u = dispatchWord u w (s.setInFlight u none) := by
  unfold State.collect
  rw [h]

theorem State.collect_free (h : s.inFlight u = none) : s.collect u = .refused .nothingInFlight := by
  unfold State.collect
  rw [h]

/-- Of the host's moves only collecting runs a command, and under rule R23 that completes. -/
theorem perform_never_faults (h : s.enc.Inv) (f : Fault) : perform m s ≠ .fault f := by
  cases m with
  | offer u w =>
    change s.offer u w ≠ _
    by_cases hf : s.inFlight u = none
    · simp [State.offer_free hf]
    · simp [State.offer_busy hf]
  | collect u =>
    change s.collect u ≠ _
    cases hf : s.inFlight u with
    | none => simp [State.collect_free hf]
    | some w =>
      obtain ⟨t, ht⟩ := dispatchWord_completes u w (s := s.setInFlight u none) (by simpa using h)
      simp [State.collect_inFlight hf, ht]
  | readStatus u => simp [perform]
  | reset =>
    change s.resetMove ≠ _
    unfold State.resetMove
    split <;> simp

end HostMoves

/-- Settles O45: rule R23 and rule R31 are met, and under rule R23 no move of the host faults. -/
theorem goodStepNeverFaults : Obligations.GoodStepNeverFaults := by
  intro s hg f
  cases hm : s.host with
  | nil => simp [step_of_idle hg.1 hm]
  | cons m rest =>
    rw [step_of_host hg.1 hm]
    exact perform_never_faults (s := { s with host := rest }) hg.1.1 f

/-- Settles O7: the step is the collect, which dispatches the word in flight, and that word decodes. -/
theorem stepRunsDecodedCommand : Obligations.StepRunsDecodedCommand := by
  intro s u rest w i hi hm hf hd
  rw [step_of_host hi hm]
  change State.collect _ u = _
  rw [State.collect_inFlight (by simpa using hf), dispatchWord, hd]

/-- Settles O9: the step is the offer, which looks at the word in flight on that port alone. -/
theorem offerFillsOnlyAFreePort : Obligations.OfferFillsOnlyAFreePort := by
  intro s w rest hi
  refine ⟨fun hm hf => ?_, fun hm hf => ?_, fun hm hf => ?_, fun hm hf => ?_⟩
  all_goals rw [step_of_host hi hm]
  · exact State.offer_free hf
  · exact State.offer_free hf
  · exact State.offer_busy hf
  · exact State.offer_busy hf

/-! ### The two units share nothing -/

/-- Settles O40: each word reads and writes its own unit, and DEC's always completes, so an ENC fault stops either order. -/
theorem unitsCommute : Obligations.UnitsCommute := by
  intro w v s
  obtain ⟨f, -, hf⟩ := dispatchWord_enc_local w
  obtain ⟨g, hg, hd⟩ := dispatchWord_dec_local v
  obtain ⟨y, hy⟩ := hg s.dec
  rw [hf, hd, hy]
  cases hx : f s.enc with
  | ok x => simp [finishEnc, finishDec, andThen, hf, hd, hx, hy]
  | error z => simp [finishEnc, finishDec, andThen, hf, hx]

/-! ### What a command leaves alone -/

/-- What a completed ENC command can change: ENC, and the log of its port by one entry. -/
theorem exec_enc_next {i : Instr} {s t : State} (hu : i.unit = .enc) (h : exec i s = .next t) :
    ∃ e out r, t = { s with enc := e, encPort := s.encPort.record out r } := by
  obtain ⟨f, -, hf⟩ := exec_enc_local hu
  obtain ⟨d, -, ht⟩ := finishEnc_next ((hf s).symm.trans h)
  exact ⟨_, _, _, ht⟩

/-- What a completed DEC command can change: DEC, and the log of its port by one entry. -/
theorem exec_dec_next {i : Instr} {s t : State} (hu : i.unit = .dec) (h : exec i s = .next t) :
    ∃ d out r, t = { s with dec := d, decPort := s.decPort.record out r } := by
  obtain ⟨f, -, hf⟩ := exec_dec_local hu
  obtain ⟨d, -, ht⟩ := finishDec_next ((hf s).symm.trans h)
  exact ⟨_, _, _, ht⟩

theorem EncState.byte_keeps_err {e : EncState} {c : Byte} {d : Done EncState} (h : e.byte c = .ok d) :
    d.st.err = e.err := by
  obtain hs | ⟨e1, h1, -, ha⟩ := EncState.byte_st h
  · rw [hs, EncState.emptied_err]
  · obtain ⟨-, n, code, hs⟩ := EncState.append_st ha
    rw [hs]
    obtain rfl | ⟨rfl, -⟩ := h1 <;> rfl

theorem EncState.close_keeps_err {e : EncState} {d : Done EncState} (h : e.close = .ok d) : d.st.err = e.err := by
  rw [EncState.close_st h, EncState.emptied_err]

theorem finishEnc_unlessHalted_keeps_err {s t : State} {r : Except Fault (Done EncState)}
    (hr : ∀ d, r = .ok d → d.st.err = s.enc.err) (h : finishEnc s (s.enc.unlessHalted r) = .next t) :
    t.enc.err = s.enc.err := by
  obtain ⟨d, hd, rfl⟩ := finishEnc_next h
  obtain hk | hd := EncState.unlessHalted_st hd
  · exact congrArg EncState.err hk
  · exact hr d hd

/-- ENC's BYTE and CLOSE never write `err` (rule R103, rule R104, rule R209). -/
theorem exec_enc_keeps_err {i : Instr} {s t : State} (hi : i = .encClose ∨ ∃ c, i = .encByte c)
    (h : exec i s = .next t) : t.enc.err = s.enc.err := by
  obtain rfl | ⟨c, rfl⟩ := hi
  · exact finishEnc_unlessHalted_keeps_err (fun _ => EncState.close_keeps_err) h
  · exact finishEnc_unlessHalted_keeps_err (fun _ => EncState.byte_keeps_err) h

/-- Settles O37: only ENC and the log of its port can change, and of ENC what its command writes. -/
theorem encCommandFrame : Obligations.EncCommandFrame := by
  intro i s t hu h
  have hconfig := (exec_encNext h).config_kept
  have herr : (i = .encClose ∨ ∃ c, i = .encByte c) → _ := fun hi => exec_enc_keeps_err hi h
  obtain ⟨e, out, r, rfl⟩ := exec_enc_next hu h
  exact ⟨rfl, rfl, rfl, rfl, rfl, rfl, ⟨_, rfl⟩, hconfig, herr⟩

/-- A DEC command's end keeps `err`, or writes the error it answers over 0 (rule R203). -/
def DecState.KeepsFirstError (d : DecState) (x : Done DecState) : Prop :=
  x.st.err = d.err ∨ (d.err = 0 ∧ x.resp.isError = true ∧ x.st.err = x.resp.code)

section DecoderErrors
variable {d : DecState}

theorem DecState.raise_keepsFirstError {r : Response} (hr : r.isError = true) : d.KeepsFirstError (d.raise r) := by
  by_cases h0 : d.err = 0
  · exact .inr ⟨h0, hr, if_pos h0⟩
  · exact .inl (if_neg h0)

theorem DecState.terminatorCase_keepsFirstError : d.KeepsFirstError d.terminatorCase := by
  rw [d.terminatorCase_eq]
  split_ifs
  · exact .inl rfl
  · exact .inl rfl
  · exact DecState.raise_keepsFirstError rfl

theorem DecState.close_keepsFirstError : d.KeepsFirstError d.close := by
  rw [d.close_eq]
  split_ifs
  · exact .inl rfl
  · exact .inl rfl
  · exact DecState.raise_keepsFirstError rfl

theorem DecState.byte_keepsFirstError {c : Byte} {x : Done DecState} (h : d.byte c = .ok x) : d.KeepsFirstError x := by
  obtain ⟨-, hb⟩ | ⟨-, -, hb⟩ | ⟨-, -, -, -, hb⟩ | ⟨-, -, -, k, -, hb⟩ := d.byte_cases c
  all_goals rw [hb] at h; cases h
  · exact DecState.terminatorCase_keepsFirstError
  · exact .inl rfl
  · exact DecState.raise_keepsFirstError rfl
  · exact .inl rfl

end DecoderErrors

theorem finishDec_unlessHalted_keepsFirstError {s t : State} {r : Except Fault (Done DecState)}
    (hr : ∀ x, r = .ok x → s.dec.KeepsFirstError x) (h : finishDec s (s.dec.unlessHalted r) = .next t) :
    t.dec.err = s.dec.err ∨
      (s.dec.err = 0 ∧ ∃ r, t.decPort.lastResponse = some r ∧ r.isError = true ∧ t.dec.err = r.code) := by
  obtain ⟨x, hx, rfl⟩ := finishDec_next h
  obtain hk | hx := DecState.unlessHalted_st hx
  · exact .inl (congrArg DecState.err hk)
  · exact (hr x hx).imp_right fun ⟨h0, he, hc⟩ => ⟨h0, x.resp, PortState.record_lastResponse .., he, hc⟩

/-- DEC's BYTE and CLOSE write `err` only over 0, and only the error they answer (rule R203, rule R209). -/
theorem exec_dec_keepsFirstError {i : Instr} {s t : State} (hi : i = .decClose ∨ ∃ c, i = .decByte c)
    (h : exec i s = .next t) :
    t.dec.err = s.dec.err ∨
      (s.dec.err = 0 ∧ ∃ r, t.decPort.lastResponse = some r ∧ r.isError = true ∧ t.dec.err = r.code) := by
  obtain rfl | ⟨c, rfl⟩ := hi
  · refine finishDec_unlessHalted_keepsFirstError (fun x hx => ?_) h
    cases hx
    exact DecState.close_keepsFirstError
  · exact finishDec_unlessHalted_keepsFirstError (fun _ => DecState.byte_keepsFirstError) h

/-- Settles O38: only DEC and the log of its port can change, and of DEC what its command writes. -/
theorem decCommandFrame : Obligations.DecCommandFrame := by
  intro i s t hu h
  have hconfig := (exec_decNext h).config_kept
  have herr : (i = .decClose ∨ ∃ c, i = .decByte c) → _ := fun hi => exec_dec_keepsFirstError hi h
  obtain ⟨d, out, r, rfl⟩ := exec_dec_next hu h
  exact ⟨rfl, rfl, rfl, rfl, rfl, rfl, ⟨_, rfl⟩, hconfig, herr⟩

/-! ### The group buffer under ENC.BYTE -/

/-- The unit that step 1 of `ENC.BYTE` leaves: a full group has gone (rule R103). -/
def EncState.withRoom (e : EncState) : EncState := if e.code = maxCode e.cfgS then e.emptied else e

section BufferUnderByte
variable {e e' : EncState} {c : Byte} {d : Done EncState}

theorem EncState.withRoom_full (h : e.code = maxCode e.cfgS) : e.withRoom = e.emptied := if_pos h

theorem EncState.withRoom_notFull (h : e.code ≠ maxCode e.cfgS) : e.withRoom = e := if_neg h

theorem EncState.withRoom_cfgS (e : EncState) : e.withRoom.cfgS = e.cfgS := by
  unfold EncState.withRoom
  split <;> rfl

theorem EncState.withRoom_emptied (e : EncState) : e.withRoom.emptied = e.emptied := by
  unfold EncState.withRoom
  split <;> rfl

theorem EncState.flushIfFull_withRoom {out : List Byte} (h : e.flushIfFull = .ok (e', out)) : e' = e.withRoom := by
  unfold EncState.flushIfFull at h
  split at h
  case isTrue hf => rw [EncState.withRoom_full hf, EncState.flushGroup_st h]
  case isFalse hf =>
    cases h
    exact (EncState.withRoom_notFull hf).symm

/-- On the sentinel `ENC.BYTE` leaves an empty group (rule R103, step 2). -/
theorem EncState.byte_sentinel_st (hc : c = e.cfgS) (h : e.byte c = .ok d) : d.st = e.emptied := by
  obtain ⟨⟨e1, out1⟩, hf, h⟩ := except_bind_ok h
  obtain rfl := EncState.flushIfFull_withRoom hf
  dsimp only at h
  rw [if_pos (hc.trans e.withRoom_cfgS.symm)] at h
  obtain ⟨⟨e2, out2⟩, hg, h⟩ := except_bind_ok h
  cases h
  exact (EncState.flushGroup_st hg).trans e.withRoom_emptied

/-- Any other byte is appended to the group that step 1 leaves (rule R103, step 3). -/
theorem EncState.byte_data_st (hc : c ≠ e.cfgS) (h : e.byte c = .ok d) : e.withRoom.append c = .ok d.st := by
  obtain ⟨⟨e1, out1⟩, hf, h⟩ := except_bind_ok h
  obtain rfl := EncState.flushIfFull_withRoom hf
  dsimp only at h
  rw [if_neg (e.withRoom_cfgS.symm ▸ hc)] at h
  obtain ⟨e2, ha, h⟩ := except_bind_ok h
  cases h
  exact ha

/-- Step 3 of `ENC.BYTE` puts the byte in entry `n` and leaves every other entry alone (rule R51, rule R103). -/
theorem EncState.append_read (h : e.append c = .ok e') :
    e'.buf.read e.n.toNat = some c ∧ ∀ a, a ≠ e.n.toNat → e'.buf.read a = e.buf.read a := by
  obtain ⟨-, n, code, rfl⟩ := EncState.append_st h
  exact ⟨Memory.read_write_same .., fun a ha => Memory.read_write_other _ _ ha⟩

end BufferUnderByte

/-- Settles O39: a halted unit is left as it is, the sentinel leaves an empty group, and any other byte is one write to
the group that step 1 leaves. -/
theorem encByteBufferFrame : Obligations.EncByteBufferFrame := by
  intro s t c h
  obtain ⟨d, hd, rfl⟩ := finishEnc_next h
  refine ⟨fun herr a => ?_, fun herr hc hf => ?_, fun herr hc hf => ?_, fun herr hc a => ?_⟩
  · rw [EncState.unlessHalted_halted herr] at hd
    cases hd
    rfl
  all_goals rw [EncState.unlessHalted_running herr] at hd
  · have ha := EncState.byte_data_st hc hd
    rw [EncState.withRoom_notFull hf] at ha
    exact EncState.append_read ha
  · have ha := EncState.byte_data_st hc hd
    rw [EncState.withRoom_full hf] at ha
    exact EncState.append_read ha
  · change d.st.buf.read a = none
    rw [EncState.byte_sentinel_st hc hd, EncState.emptied_buf, Memory.read_nil]

/-! ### CLEAR and CONFIG -/

section ClearAndConfig
variable (s : State)

theorem exec_encClear :
    exec .encClear s = .next { s with enc := { s.enc.emptied with err := 0 }, encPort := s.encPort.record [] .ok } :=
  exec_enc_ok s.enc.clear_ok

theorem exec_encConfig (c : Byte) (r a : Bool) :
    exec (.encConfig c r a) s =
      .next { s with enc := ⟨c, r, a, freshCode c, 0, [], 0⟩, encPort := s.encPort.record [] .ok } :=
  exec_enc_ok (s.enc.config_ok c r a)

theorem exec_decClear :
    exec .decClear s = .next { s with dec := s.dec.clear.st, decPort := s.decPort.record [] .ok } := rfl

theorem exec_decConfig (c : Byte) (r : Bool) :
    exec (.decConfig c r) s = .next { s with dec := (s.dec.config c r).st, decPort := s.decPort.record [] .ok } := rfl

end ClearAndConfig

/-- Settles O42: the unit each leaves is made of its operands and its configuration, which the second run finds the
same. -/
theorem clearAndConfigAreIdempotent : Obligations.ClearAndConfigAreIdempotent := by
  rintro i s t (rfl | rfl | ⟨c, r, a, rfl⟩ | ⟨c, r, rfl⟩) h
  · rw [exec_encClear] at h
    cases h
    exact ⟨_, exec_encClear _, rfl, rfl⟩
  · rw [exec_decClear] at h
    cases h
    exact ⟨_, exec_decClear _, rfl, rfl⟩
  · rw [exec_encConfig] at h
    cases h
    exact ⟨_, exec_encConfig _ c r a, rfl, rfl⟩
  · rw [exec_decConfig] at h
    cases h
    exact ⟨_, exec_decConfig _ c r, rfl, rfl⟩

end Sys2Proof.Machine

/-! PROOFS. The encoding statements (30_encoding): a command word as the number its fields write, decoding against
encoding, the legal words; the length-byte functions `L_s` and `D_s`; and the words the assembler's lines stand for. -/

namespace Sys2Proof

/-! ### A command word as the number its fields write (rule R70) -/

section Fields
variable (op : BitVec 4) (a r : Bool) (d : Byte)

@[simp] theorem fieldOp_packWord : fieldOp (packWord op a r d) = op := packWord_op op a r d
@[simp] theorem fieldRsv_packWord : fieldRsv (packWord op a r d) = 0#2 := packWord_rsv op a r d
@[simp] theorem fieldA_packWord : fieldA (packWord op a r d) = a := packWord_a op a r d
@[simp] theorem fieldR_packWord : fieldR (packWord op a r d) = r := packWord_r op a r d
@[simp] theorem fieldD_packWord : fieldD (packWord op a r d) = d := packWord_d op a r d

end Fields

theorem extractLsb'_toNat_eq (w : CmdWord) (start len : Nat) :
    (w.extractLsb' start len).toNat = w.toNat / 2 ^ start % 2 ^ len := by
  rw [BitVec.extractLsb'_toNat, Nat.shiftRight_eq_div_pow]

theorem getLsbD_toNat_eq (w : CmdWord) (i : Nat) : (w.getLsbD i).toNat = w.toNat / 2 ^ i % 2 := by
  rw [BitVec.getLsbD, Nat.toNat_testBit]

theorem toNat_eq_fields (w : CmdWord) :
    w.toNat = (fieldOp w).toNat * 4096 + (fieldRsv w).toNat * 1024 + (fieldA w).toNat * 512 +
      (fieldR w).toNat * 256 + (fieldD w).toNat := by
  have hw := w.isLt
  simp only [fieldOp, fieldRsv, fieldA, fieldR, fieldD, extractLsb'_toNat_eq, getLsbD_toNat_eq]
  omega

theorem packWord_toNat (op : BitVec 4) (a r : Bool) (d : Byte) :
    (packWord op a r d).toNat = op.toNat * 4096 + a.toNat * 512 + r.toNat * 256 + d.toNat := by
  rw [toNat_eq_fields]
  simp

/-- A word whose RSV is 0 is the word of its other fields. -/
theorem packWord_fields {w : CmdWord} (h : fieldRsv w = 0#2) :
    packWord (fieldOp w) (fieldA w) (fieldR w) (fieldD w) = w := by
  refine BitVec.eq_of_toNat_eq ?_
  rw [packWord_toNat, toNat_eq_fields w, h]
  simp

/-! ### Decoding against encoding (rule R71 to rule R74) -/

/-- The word of a command decodes to the command on its own port. -/
theorem decode_encode (i : Instr) : decode i.unit (encode i) = .ok i := by
  cases i with
  | encByte c => simp [decode, decodeByte, encode, Instr.unit]
  | encClose => simp [decode, decodeBare, encode, Instr.unit]
  | encConfig s r a => simp [decode, decodeConfig, encode, Instr.unit]
  | encClear => simp [decode, decodeBare, encode, Instr.unit]
  | decByte c => simp [decode, decodeByte, encode, Instr.unit]
  | decClose => simp [decode, decodeBare, encode, Instr.unit]
  | decConfig s r => simp [decode, decodeConfig, encode, Instr.unit]
  | decClear => simp [decode, decodeBare, encode, Instr.unit]

/-- Settles O1: each format's decoder reads the fields its word was packed from. -/
theorem decodeOfEncode : Obligations.DecodeOfEncode := decode_encode

section Decoded
variable {u : UnitId} {w : CmdWord} {i : Instr}

theorem decodeByte_ok (h : decodeByte u w = .ok i) :
    fieldA w = false ∧ fieldR w = false ∧ encode i = packWord 0x0 false false (fieldD w) := by
  unfold decodeByte at h
  split_ifs at h with hf
  obtain ⟨ha, hr⟩ : fieldA w = false ∧ fieldR w = false := by simpa using hf
  refine ⟨ha, hr, ?_⟩
  cases u with
  | enc => cases h; rfl
  | dec => cases h; rfl

theorem decodeBare_ok {j : Instr} (h : decodeBare j w = .ok i) :
    fieldA w = false ∧ fieldR w = false ∧ fieldD w = 0#8 ∧ i = j := by
  unfold decodeBare at h
  split_ifs at h with hf
  cases h
  simpa [and_assoc] using hf

theorem decodeConfig_ok (h : decodeConfig u w = .ok i) :
    encode i = packWord 0x2 (fieldA w) (fieldR w) (fieldD w) := by
  unfold decodeConfig at h
  cases u with
  | enc =>
    cases h
    rfl
  | dec =>
    dsimp only at h
    split_ifs at h with ha
    cases h
    simp [encode, ha]

/-- A word that decodes is the word of its command: the checks leave it no bit that the command does not set. -/
theorem encode_of_decode (h : decode u w = .ok i) : encode i = w := by
  unfold decode at h
  split_ifs at h with hop hrsv h0 h1 h2
  all_goals rw [not_not] at hrsv; rw [← packWord_fields hrsv]
  · obtain ⟨ha, hr, hi⟩ := decodeByte_ok h
    rw [hi, h0, ha, hr]
    rfl
  · obtain ⟨ha, hr, hd, rfl⟩ := decodeBare_ok h
    rw [h1, ha, hr, hd]
    cases u <;> rfl
  · rw [decodeConfig_ok h, h2]
    rfl
  · obtain ⟨ha, hr, hd, rfl⟩ := decodeBare_ok h
    have h3 : fieldOp w = 0x3#4 := by bv_omega
    rw [h3, ha, hr, hd]
    cases u <;> rfl

/-- Decoding on `u` and encoding are inverse to each other, on the commands of `u`. -/
theorem decode_eq_ok_iff : decode u w = .ok i ↔ i.unit = u ∧ encode i = w := by
  constructor
  · exact fun h => ⟨Machine.decode_unit h, encode_of_decode h⟩
  · rintro ⟨rfl, rfl⟩
    exact decode_encode i

end Decoded

/-! ### The legal words (rule R73) -/

theorem extractLsb'_eq_iff (w : CmdWord) (start len : Nat) (v : BitVec len) :
    w.extractLsb' start len = v ↔ w.toNat / 2 ^ start % 2 ^ len = v.toNat := by
  rw [← BitVec.toNat_inj, extractLsb'_toNat_eq]

/-- How many low bits of a CONFIG word hold operands: A is one on ENC and must be 0 on DEC. -/
def configBits : UnitId → Nat
  | .enc => 10
  | .dec => 9

/-- The legal words as numbers: one interval for each OP. -/
theorem legal_iff_toNat (u : UnitId) (w : CmdWord) :
    Legal u w = true ↔
      w.toNat < 0x100 ∨ w.toNat = 0x1000 ∨ (0x2000 ≤ w.toNat ∧ w.toNat < 0x2000 + 2 ^ configBits u) ∨
        w.toNat = 0x3000 := by
  have hw := w.isLt
  have hbits : 2 ^ configBits u ≤ 0x400 := by cases u <;> decide
  simp only [Legal, extractLsb'_eq_iff, BitVec.toNat_ofNat]
  split_ifs with h0 h13 h2
  · rw [beq_iff_eq, extractLsb'_eq_iff, BitVec.toNat_ofNat]
    omega
  · rw [beq_iff_eq, extractLsb'_eq_iff, BitVec.toNat_ofNat]
    omega
  · cases u
    all_goals simp only [beq_iff_eq, extractLsb'_eq_iff, BitVec.toNat_ofNat, configBits]; omega
  · refine iff_of_false id ?_
    omega

/-- A match by a mask of the bits from `k` up is an interval of `2 ^ k` words. -/
theorem and_highMask_eq_iff (w : CmdWord) {m v : CmdWord} (k : Nat) (hm : m = BitVec.allOnes 16 <<< k)
    (hv : 2 ^ k ∣ v.toNat) : w &&& m = v ↔ v.toNat ≤ w.toNat ∧ w.toNat < v.toNat + 2 ^ k := by
  have hk := Nat.two_pow_pos k
  have hle : w.toNat / 2 ^ k * 2 ^ k < 2 ^ 16 := (Nat.div_mul_le_self _ _).trans_lt w.isLt
  obtain ⟨q, hq⟩ := hv
  rw [hm, ← BitVec.shiftLeft_ushiftRight, ← BitVec.toNat_inj, BitVec.toNat_shiftLeft, BitVec.toNat_ushiftRight,
    Nat.shiftRight_eq_div_pow, Nat.shiftLeft_eq, Nat.mod_eq_of_lt hle, hq, Nat.mul_comm,
    Nat.mul_left_cancel_iff hk, Nat.div_eq_iff hk, Nat.mul_comm q]
  omega

/-- The pseudocode of rule R73 accepts the words that match a row: both are the same intervals. -/
theorem legal_iff_row (u : UnitId) (w : CmdWord) :
    Legal u w = true ↔
      w &&& 0xFF00 = 0x0000 ∨ w &&& 0xFFFF = 0x1000 ∨
        w &&& (BitVec.allOnes 16 <<< configBits u) = 0x2000 ∨ w &&& 0xFFFF = 0x3000 := by
  have hconfig : 2 ^ configBits u ∣ (0x2000 : CmdWord).toNat := by cases u <;> decide
  rw [legal_iff_toNat, and_highMask_eq_iff w 8 (by decide) (by decide), and_highMask_eq_iff w 0 (by decide) (by decide),
    and_highMask_eq_iff w (configBits u) rfl hconfig, and_highMask_eq_iff w 0 (by decide) (by decide)]
  simp only [BitVec.ofNat_eq_ofNat, BitVec.toNat_ofNat]
  omega

theorem packWord_eq_of_toNat {op : BitVec 4} {a r : Bool} {d : Byte} {w : CmdWord}
    (h : w.toNat = op.toNat * 4096 + a.toNat * 512 + r.toNat * 256 + d.toNat) : packWord op a r d = w :=
  BitVec.eq_of_toNat_eq ((packWord_toNat op a r d).trans h.symm)

/-- Every legal word is the word of a command of its unit. -/
theorem exists_encode_of_legal {u : UnitId} {w : CmdWord} (h : Legal u w = true) :
    ∃ i : Instr, i.unit = u ∧ encode i = w := by
  have hfields := toNat_eq_fields w
  have hd := (fieldD w).isLt
  have ha := (fieldA w).toNat_le
  have hr := (fieldR w).toNat_le
  have hrsv := (fieldRsv w).isLt
  obtain hw | hw | hw | hw := (legal_iff_toNat u w).mp h
  · have hw0 : w.toNat = (fieldD w).toNat := by omega
    have hi : packWord 0x0 false false (fieldD w) = w := packWord_eq_of_toNat (by simpa using hw0)
    cases u with
    | enc => exact ⟨.encByte (fieldD w), rfl, hi⟩
    | dec => exact ⟨.decByte (fieldD w), rfl, hi⟩
  · have hi : packWord 0x1 false false 0 = w := packWord_eq_of_toNat (by simpa using hw)
    cases u with
    | enc => exact ⟨.encClose, rfl, hi⟩
    | dec => exact ⟨.decClose, rfl, hi⟩
  · cases u with
    | enc =>
      have h2 : w.toNat = 0x2000 + (fieldA w).toNat * 512 + (fieldR w).toNat * 256 + (fieldD w).toNat := by
        dsimp only [configBits] at hw
        omega
      exact ⟨.encConfig (fieldD w) (fieldR w) (fieldA w), rfl, packWord_eq_of_toNat (by simpa using h2)⟩
    | dec =>
      have h2 : w.toNat = 0x2000 + (fieldR w).toNat * 256 + (fieldD w).toNat := by
        dsimp only [configBits] at hw
        omega
      exact ⟨.decConfig (fieldD w) (fieldR w), rfl, packWord_eq_of_toNat (by simpa using h2)⟩
  · have hi : packWord 0x3 false false 0 = w := packWord_eq_of_toNat (by simpa using hw)
    cases u with
    | enc => exact ⟨.encClear, rfl, hi⟩
    | dec => exact ⟨.decClear, rfl, hi⟩

/-- The word of a command is legal on the command's port. -/
theorem legal_encode (i : Instr) : Legal i.unit (encode i) = true := by
  cases i with
  | encByte c => exact Laws.LegalWord.encByte c
  | encClose => exact Laws.LegalWord.encClose
  | encConfig s r a => exact Laws.LegalWord.encConfig s r a
  | encClear => exact Laws.LegalWord.encClear
  | decByte c => exact Laws.LegalWord.decByte c
  | decClose => exact Laws.LegalWord.decClose
  | decConfig s r => exact Laws.LegalWord.decConfig s r
  | decClear => exact Laws.LegalWord.decClear

/-- A word is legal exactly when it decodes. -/
theorem legal_iff_decodes (u : UnitId) (w : CmdWord) : Legal u w = true ↔ ∃ i, decode u w = .ok i := by
  simp only [decode_eq_ok_iff]
  constructor
  · exact exists_encode_of_legal
  · rintro ⟨i, rfl, rfl⟩
    exact legal_encode i

/-- Settles O2: the rows and the pseudocode are the same intervals of words, and decoding inverts encoding. -/
theorem legalWordsMatchTheTable : Obligations.LegalWordsMatchTheTable := by
  intro u w
  refine ⟨?_, legal_iff_decodes u w, fun i => decode_eq_ok_iff.mp⟩
  cases u with
  | enc => exact legal_iff_row .enc w
  | dec => exact legal_iff_row .dec w

end Sys2Proof

namespace Sys2Proof.Machine

/-! ### The length-byte functions (rule R79 to rule R83) -/

theorem lengthByte_lt_of_lt (s : Byte) {j k : Nat} (h : j < k) : lengthByte s j < lengthByte s k := by
  rw [lengthByte_eq, lengthByte_eq]
  split_ifs <;> omega

/-- Settles O5: `lengthByte_bounds` at `k` and at `M(s)`, and the step of `L_s` over the sentinel only goes up. -/
theorem lengthByteOfGroup : Obligations.LengthByteOfGroup := by
  intro s
  refine ⟨fun k hk => ?_, fun j k hj _ => lengthByte_lt_of_lt s hj, ?_⟩
  · obtain ⟨h1, hmax, hs, -⟩ := lengthByte_bounds s hk
    exact ⟨h1, hmax, hs⟩
  · obtain ⟨-, -, -, htop⟩ := lengthByte_bounds s (Nat.le_refl (maxData s))
    exact htop.mp rfl

/-- Below the top, `L_s(k)` is a byte. -/
theorem lengthByte_byte_toNat {s : Byte} {k : Nat} (hk : k ≤ maxData s) :
    (BitVec.ofNat 8 (lengthByte s k)).toNat = lengthByte s k := by
  obtain ⟨-, hmax, -⟩ := lengthByte_bounds s hk
  exact Nat.mod_eq_of_lt (hmax.trans_lt (maxCode s).isLt)

theorem dataCount_illegal {s c : Byte} (h : ¬legalLength s c = true) : dataCount s c = none := if_neg h

/-- `D_s` is the inverse of `L_s` on `0..M(s)`: the one fact about the two functions together (rule R82). -/
theorem dataCount_eq_some_iff {s c : Byte} {k : Nat} :
    dataCount s c = some k ↔ k ≤ maxData s ∧ c.toNat = lengthByte s k := by
  have hc := c.isLt
  have hs := s.isLt
  by_cases hl : legalLength s c = true
  · rw [dataCount_eq s c hl, Option.some.injEq, maxData_eq, lengthByte_eq]
    rw [legalLength_iff, maxCode_toNat] at hl
    split_ifs at hl ⊢ <;> omega
  · rw [dataCount_illegal hl]
    refine iff_of_false (by simp) ?_
    rintro ⟨hk, hck⟩
    obtain ⟨h1, hmax, hne, -⟩ := lengthByte_bounds s hk
    exact hl ((legalLength_iff s c).mpr (hck ▸ ⟨h1, hmax, hne⟩))

/-- Settles O6: each part reads `dataCount_eq_some_iff` in one direction, or that `D_s` is undefined off rule R83. -/
theorem dataCountInvertsLengthByte : Obligations.DataCountInvertsLengthByte := by
  intro s
  have hlegal (c : Byte) :
      legalLength s c = true ↔ 1 ≤ c.toNat ∧ c.toNat ≤ (maxCode s).toNat ∧ c ≠ s := by
    rw [legalLength_iff, Ne, Ne, byte_eq_iff]
  refine ⟨fun k hk => ?_, fun c hc => ?_, fun c hc => ?_⟩
  · exact dataCount_eq_some_iff.mpr ⟨hk, lengthByte_byte_toNat hk⟩
  · have hd := dataCount_eq s c ((hlegal c).mpr hc)
    obtain ⟨hk, hck⟩ := dataCount_eq_some_iff.mp hd
    exact ⟨_, hk, byte_eq_iff.mpr (hck.trans (lengthByte_byte_toNat hk).symm), hd⟩
  · exact dataCount_illegal (mt (hlegal c).mp hc)

/-! ### Words and lines written out -/

/-- Settles O3: eight of the words are the words of their commands, and two fail a check. -/
theorem specWordsDecode : Obligations.SpecWordsDecode := by
  refine ⟨?_, ?_, ?_, ?_, ?_, ?_, ?_, ?_, ?_, ?_⟩
  · exact decode_encode (.encByte 0x41)
  · exact decode_encode .encClose
  · exact decode_encode (.encConfig 0x7E true true)
  · exact decode_encode .encClear
  · exact decode_encode (.decByte 0x41)
  · exact decode_encode .decClose
  · exact decode_encode (.decConfig 0x80 true)
  · exact decode_encode .decClear
  · decide
  · decide

/-- A line that reads as a command stands for the command's port and word (rule R87). -/
theorem Asm.assemble_command {cs : List Char} {i : Instr} (h : Asm.parseLine cs = some (.command i)) :
    Asm.assemble cs = some (i.unit, encode i) := by
  unfold Asm.assemble
  rw [h]

/-- Settles O4: each line reads as its command, whose word is that of the table. -/
theorem assemblerWords : Obligations.AssemblerWords := by
  refine ⟨?_, ?_, ?_, ?_, ?_, ?_, ?_, ?_, ?_, ?_⟩
  · exact Asm.assemble_command (i := .encByte 0x41) (by decide)
  · exact Asm.assemble_command (i := .encByte 0x41) (by decide)
  · exact Asm.assemble_command (i := .encConfig 0x7E true true) (by decide)
  · exact Asm.assemble_command (i := .encConfig 0x00 false true) (by decide)
  · exact Asm.assemble_command (i := .encClose) (by decide)
  · exact Asm.assemble_command (i := .encClear) (by decide)
  · exact Asm.assemble_command (i := .decByte 0x41) (by decide)
  · exact Asm.assemble_command (i := .decConfig 0x05 false) (by decide)
  · exact Asm.assemble_command (i := .decClose) (by decide)
  · exact Asm.assemble_command (i := .decClear) (by decide)

end Sys2Proof.Machine

/-! PROOFS. The encoder statements (40_encoder): the bytes the group being built and the final group can hold, and with
them the full effect of BYTE and CLOSE on a running unit. -/

namespace Sys2Proof.Machine

/-! ### The bytes of a group (rule R23, rule R52) -/

/-- No byte but the sentinel lies above `maxCode(s)` (rule R79). -/
theorem toNat_le_maxCode {s b : Byte} (hb : b ≠ s) : b.toNat ≤ (maxCode s).toNat := by
  have hlt := b.isLt
  rw [Ne, byte_eq_iff] at hb
  rw [maxCode_toNat]
  split <;> omega

section GroupBytes
variable {e : EncState}

theorem EncState.inv_cfgS_notMem_data (h : e.Inv) : e.cfgS ∉ e.data := by
  obtain ⟨-, -, -, -, hs⟩ := h
  intro hm
  obtain ⟨x, hx, hxs⟩ := List.mem_map.mp hm
  exact hs x hx hxs

theorem EncState.inv_cfgS_notMem_group (h : e.Inv) : e.cfgS ∉ e.group := by
  have hdata := EncState.inv_cfgS_notMem_data h
  obtain ⟨hcode, hn, -⟩ := h
  obtain ⟨-, -, hne, -⟩ := lengthByte_bounds e.cfgS hn
  have hs : e.cfgS ≠ e.code := fun hc => hne (hcode.symm.trans (congrArg BitVec.toNat hc.symm))
  exact List.not_mem_cons_of_ne_of_not_mem hs hdata

theorem EncState.inv_length_group_le (h : e.Inv) : e.group.length ≤ 255 := by
  rw [EncState.group, List.length_cons, EncState.inv_length_data h]
  obtain ⟨-, hn, -⟩ := h
  exact Nat.succ_le_succ (hn.trans (maxData_le e.cfgS))

/-- No data byte lies above a full group's length byte, so a full group is never shrunk (rule R104). -/
theorem EncState.inv_full_not_lt (h : e.Inv) (hf : e.code = maxCode e.cfgS) {b : Byte} (hb : b ∈ e.data) :
    ¬ e.code < b := by
  have hne : b ≠ e.cfgS := ne_of_mem_of_not_mem hb (EncState.inv_cfgS_notMem_data h)
  rw [hf, BitVec.lt_def]
  exact Nat.not_lt.mpr (toNat_le_maxCode hne)

end GroupBytes

/-! ### The final group (rule R85, rule R104) -/

section FinalGroup
variable {e : EncState}

theorem EncState.finalGroup_shrunk {last : Byte} (hl : e.data.getLast? = some last) (hr : e.cfgR = true)
    (hlt : e.code < last) : e.finalGroup = last :: e.data.dropLast := by
  simp only [EncState.finalGroup, hl, hr, hlt, and_self, if_true]

theorem EncState.finalGroup_unshrunk
    (h : ¬∃ last, e.data.getLast? = some last ∧ e.cfgR = true ∧ e.code < last) : e.finalGroup = e.group := by
  unfold EncState.finalGroup
  split
  next last hl => exact if_neg fun hs => h ⟨last, hl, hs⟩
  next => rfl

/-- The final group holds bytes of the group being built, each no more often: shrinking drops the length byte and moves
the last data byte to the front (rule R85). -/
theorem EncState.finalGroup_subperm_group (e : EncState) : e.finalGroup.Subperm e.group := by
  by_cases h : ∃ last, e.data.getLast? = some last ∧ e.cfgR = true ∧ e.code < last
  · obtain ⟨last, hl, hr, hlt⟩ := h
    have hperm : (last :: e.data.dropLast).Perm e.data := by
      have hd : e.data.dropLast ++ [last] = e.data := List.dropLast_append_getLast? last hl
      exact (List.perm_append_singleton last _).symm.trans (.of_eq hd)
    rw [EncState.finalGroup_shrunk hl hr hlt]
    exact hperm.subperm.trans (List.sublist_cons_self e.code e.data).subperm
  · rw [EncState.finalGroup_unshrunk h]

theorem EncState.inv_full_finalGroup (h : e.Inv) (hf : e.code = maxCode e.cfgS) : e.finalGroup = e.group := by
  refine EncState.finalGroup_unshrunk ?_
  rintro ⟨last, hl, -, hlt⟩
  exact EncState.inv_full_not_lt h hf (List.mem_of_getLast? hl) hlt

end FinalGroup

/-! ### The output of BYTE (rule R103) -/

/-- A full group goes first (step 1); the sentinel then sends the group that step 1 leaves (step 2). -/
def EncState.byteOut (e : EncState) (c : Byte) : List Byte :=
  (if e.code = maxCode e.cfgS then e.group else []) ++
    (if c = e.cfgS then if e.code = maxCode e.cfgS then [freshCode e.cfgS] else e.group else [])

section ByteOutput
variable {e : EncState}

theorem EncState.inv_byte_byteOut (h : e.Inv) (c : Byte) :
    e.byte c = .ok
      ⟨if c = e.cfgS then e.emptied else if e.code = maxCode e.cfgS then e.emptied.pushed c else e.pushed c,
        e.byteOut c, .ok⟩ := by
  rw [EncState.inv_byte_ok h c]
  unfold EncState.byteOut
  split_ifs with hc hf hf
  · rfl
  · rfl
  · rw [List.append_nil]
  · rfl

/-- At most a full group and a fresh length byte go out (rule R10). -/
theorem EncState.inv_length_byteOut_le (h : e.Inv) (c : Byte) : (e.byteOut c).length ≤ 256 := by
  have hlen := EncState.inv_length_group_le h
  rw [EncState.byteOut, List.length_append]
  split_ifs <;> simp only [List.length_cons, List.length_nil] <;> omega

end ByteOutput

/-! ### BYTE and CLOSE on a running unit -/

section Running
variable {s : State} {d : Done EncState}

theorem exec_encByte_running {c : Byte} (herr : s.enc.err = 0) (h : s.enc.byte c = .ok d) :
    exec (.encByte c) s = .next { s with enc := d.st, encPort := s.encPort.record d.out d.resp } :=
  exec_enc_ok ((EncState.unlessHalted_running herr _).trans h)

theorem exec_encClose_running (herr : s.enc.err = 0) (h : s.enc.close = .ok d) :
    exec .encClose s = .next { s with enc := d.st, encPort := s.encPort.record d.out d.resp } :=
  exec_enc_ok ((EncState.unlessHalted_running herr _).trans h)

end Running

/-- Settles O22: what `inv_byte_byteOut` says the unit leaves and emits, at most a group of 255 bytes and one more. -/
theorem encByteEffect : Obligations.EncByteEffect := by
  intro s c h herr
  refine ⟨s.enc.byteOut c, ?_, rfl, EncState.inv_length_byteOut_le h c, rfl⟩
  exact exec_encByte_running herr (EncState.inv_byte_byteOut h c)

/-- Settles O23: the output is `finalGroup` and the terminator; the final group's bytes are bytes of the group being
built, which is at most 255 bytes and free of the sentinel. -/
theorem encCloseEffect : Obligations.EncCloseEffect := by
  intro s h herr
  have hsub := s.enc.finalGroup_subperm_group
  refine ⟨s.enc.finalGroup, exec_encClose_running herr (EncState.inv_close_ok h),
    fun _ => EncState.finalGroup_shrunk, EncState.finalGroup_unshrunk, EncState.inv_full_finalGroup h, ?_, ?_, rfl⟩
  · exact hsub.length_le.trans (EncState.inv_length_group_le h)
  · exact fun hm => EncState.inv_cfgS_notMem_group h (hsub.subset hm)

end Sys2Proof.Machine

/-! PROOFS. The decoder statements (41_decoder): `DEC.BYTE` and `DEC.CLOSE` on a running unit case by case, then what
every decoder command answers and emits. -/

namespace Sys2Proof.Machine

theorem byte_toNat_pos_iff {b : Byte} : 0 < b.toNat ↔ b ≠ 0x00 := by
  rw [Nat.pos_iff_ne_zero, ne_eq, ne_eq, byte_eq_zero_iff]

section RunningDecoder
variable {s : State} {c : Byte} {x : Done DecState}

theorem exec_decByte_running (herr : s.dec.err = 0) (h : s.dec.byte c = .ok x) :
    exec (.decByte c) s = .next { s with dec := x.st, decPort := s.decPort.record x.out x.resp } :=
  exec_dec_ok ((DecState.unlessHalted_running herr _).trans h)

theorem exec_decClose_running (herr : s.dec.err = 0) (h : s.dec.close = x) :
    exec .decClose s = .next { s with dec := x.st, decPort := s.decPort.record x.out x.resp } :=
  exec_dec_ok ((DecState.unlessHalted_running herr _).trans (congrArg Except.ok h))

end RunningDecoder

/-! ### The cases of BYTE and CLOSE, one equation each (rule R131 to rule R135) -/

section Cases
variable {d : DecState} {c : Byte}

/-- On a running unit `raise` records the error it answers (rule R203). -/
theorem DecState.raise_running (h : d.err = 0) (r : Response) : d.raise r = ⟨{ d with err := r.code }, [], r⟩ := by
  rw [DecState.raise, keepFirst, if_pos h]

theorem DecState.initFrame_idle (h : d.codeIndex = 0) : d.initFrame = { d with code := maxCode d.cfgS } := by
  rw [DecState.initFrame, ← h]

theorem DecState.byte_sentinel (d : DecState) : d.byte d.cfgS = .ok d.terminatorCase := if_pos rfl

theorem DecState.byte_data (hc : c ≠ d.cfgS) (hk : d.codeIndex ≠ 0) :
    d.byte c = .ok ⟨{ d with codeIndex := d.codeIndex - 1 }, [c], .ok⟩ := by
  rw [DecState.byte, if_neg hc, if_pos (byte_toNat_pos_iff.mpr hk), DecState.dataCase_ok hk]

theorem DecState.byte_lengthCase (hc : c ≠ d.cfgS) (hk : d.codeIndex = 0) : d.byte c = d.lengthCase c := by
  rw [DecState.byte, if_neg hc, if_neg fun hpos => byte_toNat_pos_iff.mp hpos hk]

theorem DecState.terminatorCase_idle (hk : d.codeIndex = 0) :
    d.terminatorCase = ⟨{ d with code := maxCode d.cfgS }, [], .endOfFrame⟩ := by
  rw [d.terminatorCase_eq, if_pos hk]

theorem DecState.terminatorCase_reduced (hr : d.cfgR = true) (hk : d.codeIndex ≠ 0) :
    d.terminatorCase = ⟨{ d with code := maxCode d.cfgS, codeIndex := 0 }, [d.code], .endOfFrame⟩ := by
  rw [d.terminatorCase_eq, if_neg hk, if_pos hr]

theorem DecState.terminatorCase_short (hr : d.cfgR = false) (hk : d.codeIndex ≠ 0) :
    d.terminatorCase = d.raise .errUnexpectedEof := by
  rw [d.terminatorCase_eq, if_neg hk, if_neg (Bool.eq_false_iff.mp hr)]

theorem DecState.close_idle (hk : d.codeIndex = 0) : d.close = ⟨{ d with code := maxCode d.cfgS }, [], .ok⟩ := by
  rw [d.close_eq, if_pos hk, DecState.initFrame_idle hk]

theorem DecState.close_reduced (hr : d.cfgR = true) (hk : d.codeIndex ≠ 0) :
    d.close = ⟨d.initFrame, [d.code], .ok⟩ := by
  rw [d.close_eq, if_neg hk, if_pos hr]

theorem DecState.close_short (hr : d.cfgR = false) (hk : d.codeIndex ≠ 0) : d.close = d.raise .errIncompleteFrame := by
  rw [d.close_eq, if_neg hk, if_neg (Bool.eq_false_iff.mp hr)]

end Cases

/-- Settles O27: the three cases of the terminator, by the mode and whether bytes are owed. -/
theorem decTerminatorEffect : Obligations.DecTerminatorEffect := by
  intro s herr
  have hexec {x : Done DecState} (h : s.dec.terminatorCase = x) :=
    exec_decByte_running herr (s.dec.byte_sentinel.trans (congrArg Except.ok h))
  refine ⟨fun hr hk => ?_, fun hr hk => ?_, fun hk => ?_⟩
  · exact hexec (DecState.terminatorCase_reduced hr hk)
  · exact hexec ((DecState.terminatorCase_short hr hk).trans (DecState.raise_running herr _))
  · exact hexec (DecState.terminatorCase_idle hk)

/-- Settles O28: a byte owed is passed on, and a count that is not 0 goes down without wrapping. -/
theorem decDataByteEffect : Obligations.DecDataByteEffect := by
  intro s c herr hc hk
  have hpos : 0 < s.dec.codeIndex.toNat := byte_toNat_pos_iff.mpr hk
  refine ⟨exec_decByte_running herr (DecState.byte_data hc hk), ?_⟩
  rw [pred_toNat hpos, Nat.sub_add_cancel hpos]

/-- Settles O29: a byte that comes when nothing is owed is refused as a length byte, or declares `D_s(c)` bytes. -/
theorem decLengthByteEffect : Obligations.DecLengthByteEffect := by
  intro s c herr hc hk
  have hbyte := DecState.byte_lengthCase hc hk
  refine ⟨fun hs0 hc0 => ?_, fun hlegal => ?_⟩
  · rw [DecState.lengthCase_bad ⟨hs0, hc0⟩, DecState.raise_running herr] at hbyte
    exact exec_decByte_running herr hbyte
  · obtain ⟨k, hd, hlen⟩ := DecState.lengthCase_ok hc hlegal
    exact ⟨k, hd, exec_decByte_running herr (hbyte.trans hlen)⟩

/-- Settles O31: the three cases of CLOSE, by the mode and whether bytes are owed. -/
theorem decCloseEffect : Obligations.DecCloseEffect := by
  intro s herr
  refine ⟨fun hr hk => ?_, fun hr hk => ?_, fun hk => ?_, rfl⟩
  · exact exec_decClose_running herr (DecState.close_reduced hr hk)
  · exact exec_decClose_running herr ((DecState.close_short hr hk).trans (DecState.raise_running herr _))
  · exact exec_decClose_running herr (DecState.close_idle hk)

/-! ### What a decoder command answers and emits (rule R136, rule R137) -/

section AnswersAndOutput
variable {d : DecState} {c : Byte} {x : Done DecState}

theorem DecState.terminatorCase_resp (d : DecState) :
    d.terminatorCase.resp = .endOfFrame ∨ d.terminatorCase.resp = .errUnexpectedEof := by
  rw [d.terminatorCase_eq]
  split_ifs
  · exact .inl rfl
  · exact .inl rfl
  · exact .inr rfl

theorem DecState.byte_resp (h : d.byte c = .ok x) :
    x.resp = .ok ∨ x.resp = .endOfFrame ∨ x.resp = .errUnexpectedEof ∨ x.resp = .errBadLength := by
  obtain ⟨-, hb⟩ | ⟨-, -, hb⟩ | ⟨-, -, -, -, hb⟩ | ⟨-, -, -, k, -, hb⟩ := d.byte_cases c
  all_goals rw [hb] at h; cases h
  · exact .inr (d.terminatorCase_resp.imp_right .inl)
  · exact .inl rfl
  · exact .inr (.inr (.inr rfl))
  · exact .inl rfl

theorem DecState.terminatorCase_out_le (d : DecState) : d.terminatorCase.out.length ≤ 1 := by
  rw [d.terminatorCase_eq]
  split_ifs <;> simp

theorem DecState.close_out_le (d : DecState) : d.close.out.length ≤ 1 := by
  rw [d.close_eq]
  split_ifs <;> simp

theorem DecState.rebuilt_length_le (d : DecState) : d.rebuilt.length ≤ 1 := by
  unfold DecState.rebuilt
  split <;> simp

theorem DecState.byte_out_le (h : d.byte c = .ok x) : x.out.length ≤ 1 := by
  obtain ⟨-, hb⟩ | ⟨-, -, hb⟩ | ⟨-, -, -, -, hb⟩ | ⟨-, -, -, k, -, hb⟩ := d.byte_cases c
  all_goals rw [hb] at h; cases h
  · exact d.terminatorCase_out_le
  · exact Nat.le_refl 1
  · exact Nat.zero_le 1
  · exact d.rebuilt_length_le

/-- A halted unit emits nothing, so BYTE and CLOSE emit no more than their rule does (rule R209). -/
theorem DecState.unlessHalted_out_le {r : Except Fault (Done DecState)} (hr : ∀ y, r = .ok y → y.out.length ≤ 1)
    (h : d.unlessHalted r = .ok x) : x.out.length ≤ 1 := by
  by_cases herr : d.err = 0
  · rw [DecState.unlessHalted_running herr] at h
    exact hr x h
  · rw [DecState.unlessHalted_halted herr] at h
    cases h
    exact Nat.zero_le 1

end AnswersAndOutput

/-- A DEC command adds what its unit's rule emits to the port's log as one entry (rule R56). -/
theorem finishDec_log_out_le {s t : State} {r : Except Fault (Done DecState)}
    (hr : ∀ x, r = .ok x → x.out.length ≤ 1) (h : finishDec s r = .next t) :
    ∃ out r, t.decPort.log = s.decPort.log ++ [⟨out, r⟩] ∧ out.length ≤ 1 := by
  obtain ⟨x, hx, rfl⟩ := finishDec_next h
  exact ⟨x.out, x.resp, PortState.record_log .., hr x hx⟩

/-- Settles O30: `DEC.BYTE` completes on every state, with an answer that `byte_resp` lists. -/
theorem decByteIsTotal : Obligations.DecByteIsTotal := by
  intro s c herr
  obtain ⟨x, hx⟩ := s.dec.byte_completes c
  exact ⟨_, x.resp, exec_decByte_running herr hx, PortState.record_responses .., DecState.byte_resp hx⟩

/-- Settles O34: BYTE and CLOSE emit at most one byte, CONFIG and CLEAR none. -/
theorem decEmitsAtMostOneByte : Obligations.DecEmitsAtMostOneByte := by
  intro i s t hu h
  cases i with
  | encByte _ => cases hu
  | encClose => cases hu
  | encConfig _ _ _ => cases hu
  | encClear => cases hu
  | decByte c =>
    exact finishDec_log_out_le (fun _ => DecState.unlessHalted_out_le fun _ => DecState.byte_out_le) h
  | decClose =>
    refine finishDec_log_out_le (fun _ => DecState.unlessHalted_out_le fun x hx => ?_) h
    cases hx
    exact s.dec.close_out_le
  | decConfig c r =>
    rw [exec_decConfig] at h
    cases h
    exact ⟨[], .ok, PortState.record_log .., Nat.zero_le 1⟩
  | decClear =>
    rw [exec_decClear] at h
    cases h
    exact ⟨[], .ok, PortState.record_log .., Nat.zero_le 1⟩

end Sys2Proof.Machine

/-! PROOFS. The control statements (42_control): the dispatch of a legal and of an illegal word, the effect of CONFIG
and CLEAR on each unit, the status read, and what can change a configuration. -/

namespace Sys2Proof

/-! ### The command of a legal word (rule R71, rule R73) -/

/-- The command of unit `u` that OP selects, on the operand bits of `w`, in the order of the dispatch: CONFIG and CLEAR
first (rule R71, rule R160). -/
def opCommand (u : UnitId) (op : BitVec 4) (w : CmdWord) : Instr :=
  match u with
  | .enc =>
    if op = 2#4 then .encConfig (fieldD w) (fieldR w) (fieldA w)
    else if op = 3#4 then .encClear
    else if op = 0#4 then .encByte (fieldD w)
    else .encClose
  | .dec =>
    if op = 2#4 then .decConfig (fieldD w) (fieldR w)
    else if op = 3#4 then .decClear
    else if op = 0#4 then .decByte (fieldD w)
    else .decClose

theorem opCommand_encode (i : Instr) : opCommand i.unit (fieldOp (encode i)) (encode i) = i := by
  cases i with
  | encByte c => simp [opCommand, encode, Instr.unit]
  | encClose => simp [opCommand, encode, Instr.unit]
  | encConfig s r a => simp [opCommand, encode, Instr.unit]
  | encClear => simp [opCommand, encode, Instr.unit]
  | decByte c => simp [opCommand, encode, Instr.unit]
  | decClose => simp [opCommand, encode, Instr.unit]
  | decConfig s r => simp [opCommand, encode, Instr.unit]
  | decClear => simp [opCommand, encode, Instr.unit]

theorem decode_of_legal {u : UnitId} {w : CmdWord} (h : Legal u w = true) :
    decode u w = .ok (opCommand u (fieldOp w) w) := by
  obtain ⟨i, rfl, rfl⟩ := exists_encode_of_legal h
  rw [decode_encode, opCommand_encode]

section DataCommands
variable {op : BitVec 4}

theorem opCommand_enc_data (h2 : op ≠ 2#4) (h3 : op ≠ 3#4) (w : CmdWord) :
    opCommand .enc op w = .encClose ∨ ∃ c, opCommand .enc op w = .encByte c := by
  simp only [opCommand, if_neg h2, if_neg h3]
  split
  case isTrue => exact .inr ⟨_, rfl⟩
  case isFalse => exact .inl rfl

theorem opCommand_dec_data (h2 : op ≠ 2#4) (h3 : op ≠ 3#4) (w : CmdWord) :
    opCommand .dec op w = .decClose ∨ ∃ c, opCommand .dec op w = .decByte c := by
  simp only [opCommand, if_neg h2, if_neg h3]
  split
  case isTrue => exact .inr ⟨_, rfl⟩
  case isFalse => exact .inl rfl

end DataCommands

/-- D is or-ed into the low bits of a word, which the other fields leave 0 (rule R70). -/
theorem packWord_eq_or (op : BitVec 4) (a r : Bool) (d : Byte) :
    packWord op a r d = packWord op a r 0 ||| d.setWidth 16 := by
  refine BitVec.eq_of_getLsbD_eq fun i hi => ?_
  rw [BitVec.getLsbD_or, BitVec.getLsbD_setWidth, packWord_getLsbD, packWord_getLsbD]
  by_cases h8 : i < 8
  · simp [h8, hi]
  · simp [h8, BitVec.getLsbD_of_ge d i (by omega)]

theorem encode_encConfig (c : Byte) (r a : Bool) :
    encode (.encConfig c r a) =
      0x2000 ||| (if a then 0x0200 else 0) ||| (if r then 0x0100 else 0) ||| c.setWidth 16 := by
  rw [encode, packWord_eq_or]
  cases a <;> cases r <;> rfl

theorem encode_decConfig (c : Byte) (r : Bool) :
    encode (.decConfig c r) = 0x2000 ||| (if r then 0x0100 else 0) ||| c.setWidth 16 := by
  rw [encode, packWord_eq_or]
  cases r <;> rfl

end Sys2Proof

namespace Sys2Proof.Machine

/-! ### The dispatch (rule R160) -/

section Dispatch
variable {u : UnitId} {w : CmdWord} {op : BitVec 4} {i : Instr} {s : State}

theorem dispatchWord_legal (h : Legal u w = true) (hop : w.extractLsb' 12 4 = op) :
    dispatchWord u w s = exec (opCommand u op w) s := by
  rw [dispatchWord, decode_of_legal h, fieldOp, hop]

theorem dispatchWord_illegal (h : Legal u w = false) : dispatchWord u w s = illegalCommand u s := by
  obtain ⟨i, hd, -⟩ | ⟨-, hw⟩ := dispatchWord_cases u w s
  · have hl : Legal u w = true := (legal_iff_decodes u w).mpr ⟨i, hd⟩
    exact absurd (h.symm.trans hl) Bool.false_ne_true
  · exact hw

/-- BYTE and CLOSE on a halted ENC (rule R209). -/
theorem exec_enc_halted (hi : i = .encClose ∨ ∃ c, i = .encByte c) (herr : s.enc.err ≠ 0) :
    exec i s = .next { s with encPort := s.encPort.record [] .errHalted } := by
  obtain rfl | ⟨c, rfl⟩ := hi
  · exact exec_enc_ok (EncState.unlessHalted_halted herr _)
  · exact exec_enc_ok (EncState.unlessHalted_halted herr _)

/-- BYTE and CLOSE on a halted DEC (rule R209). -/
theorem exec_dec_halted (hi : i = .decClose ∨ ∃ c, i = .decByte c) (herr : s.dec.err ≠ 0) :
    exec i s = .next { s with decPort := s.decPort.record [] .errHalted } := by
  obtain rfl | ⟨c, rfl⟩ := hi
  · exact exec_dec_ok (DecState.unlessHalted_halted herr _)
  · exact exec_dec_ok (DecState.unlessHalted_halted herr _)

end Dispatch

/-- Settles O14: an illegal word is raised, a legal one runs the command that its OP selects, and of those BYTE and
CLOSE look at `err`. -/
theorem dispatchOrder : Obligations.DispatchOrder := by
  intro w s
  refine ⟨dispatchWord_illegal, fun hl => dispatchWord_legal hl, fun hl => dispatchWord_legal hl,
    fun hl h2 h3 herr => ?_, fun hl hop herr => ?_, fun hl hop herr => ?_,
    dispatchWord_illegal, fun hl => dispatchWord_legal hl, fun hl => dispatchWord_legal hl,
    fun hl h2 h3 herr => ?_, fun hl hop herr => ?_, fun hl hop herr => ?_⟩
  · exact (dispatchWord_legal hl rfl).trans (exec_enc_halted (opCommand_enc_data h2 h3 w) herr)
  · exact (dispatchWord_legal hl hop).trans (congrArg (finishEnc s) (EncState.unlessHalted_running herr _))
  · exact (dispatchWord_legal hl hop).trans (congrArg (finishEnc s) (EncState.unlessHalted_running herr _))
  · exact (dispatchWord_legal hl rfl).trans (exec_dec_halted (opCommand_dec_data h2 h3 w) herr)
  · exact (dispatchWord_legal hl hop).trans (congrArg (finishDec s) (DecState.unlessHalted_running herr _))
  · exact (dispatchWord_legal hl hop).trans (congrArg (finishDec s) (DecState.unlessHalted_running herr _))

/-! ### CONFIG and CLEAR (rule R161 to rule R164) -/

/-- Settles O24: CONFIG writes every field of ENC, from its operands alone. -/
theorem encConfigEffect : Obligations.EncConfigEffect :=
  fun s c r a => ⟨exec_encConfig s c r a, encode_encConfig c r a⟩

/-- Settles O25: CLEAR is an empty group and no error. -/
theorem encClearEffect : Obligations.EncClearEffect := fun s => ⟨exec_encClear s, rfl⟩

/-- Settles O32: CONFIG writes every field of DEC, from its operands alone. -/
theorem decConfigEffect : Obligations.DecConfigEffect :=
  fun s c r => ⟨exec_decConfig s c r, encode_decConfig c r⟩

/-- Settles O33: CLEAR is frame start and no error. -/
theorem decClearEffect : Obligations.DecClearEffect := fun s => ⟨exec_decClear s, rfl⟩

/-! ### A step that collects an illegal word, and one that reads a status word -/

/-- Settles O8: the step is the collect, which dispatches the word in flight, and that word is illegal. -/
theorem stepRaisesOnIllegalWord : Obligations.StepRaisesOnIllegalWord := by
  intro s u rest w hi hm hf hl
  rw [step_of_host hi hm]
  change State.collect _ u = _
  rw [State.collect_inFlight (by simpa using hf), dispatchWord_illegal hl]

/-- Settles O11: the step is the read, which writes the host's list `reads` alone. -/
theorem statusReadHasNoSideEffect : Obligations.StatusReadHasNoSideEffect :=
  fun _ _ hi => ⟨step_of_host hi, step_of_host hi⟩

/-! ### What can change a configuration (rule R166) -/

/-- Some configuration field of ENC differs. -/
def EncState.ConfigDiffers (e' e : EncState) : Prop := e'.cfgS ≠ e.cfgS ∨ e'.cfgR ≠ e.cfgR ∨ e'.cfgA ≠ e.cfgA

/-- Some configuration field of DEC differs. -/
def DecState.ConfigDiffers (d' d : DecState) : Prop := d'.cfgS ≠ d.cfgS ∨ d'.cfgR ≠ d.cfgR

theorem EncState.not_configDiffers_iff {e' e : EncState} :
    ¬e'.ConfigDiffers e ↔ e'.cfgS = e.cfgS ∧ e'.cfgR = e.cfgR ∧ e'.cfgA = e.cfgA := by
  simp [EncState.ConfigDiffers]

theorem DecState.not_configDiffers_iff {d' d : DecState} :
    ¬d'.ConfigDiffers d ↔ d'.cfgS = d.cfgS ∧ d'.cfgR = d.cfgR := by
  simp [DecState.ConfigDiffers]

section ConfigurationChange
variable {u : UnitId} {w : CmdWord} {i : Instr} {s t : State}

theorem EncNext.config_of_configDiffers {e e' : EncState} (h : EncNext i e e') (hc : e'.ConfigDiffers e) :
    ∃ c r a, i = .encConfig c r a := by
  by_contra hi
  exact EncState.not_configDiffers_iff.mpr (h.config_kept fun c r a h => hi ⟨c, r, a, h⟩) hc

theorem DecNext.config_of_configDiffers {d d' : DecState} (h : DecNext i d d') (hc : d'.ConfigDiffers d) :
    ∃ c r, i = .decConfig c r := by
  by_contra hi
  exact DecState.not_configDiffers_iff.mpr (h.config_kept fun c r h => hi ⟨c, r, h⟩) hc

theorem illegalCommand_keeps_config (h : illegalCommand u s = .next t) :
    ¬t.enc.ConfigDiffers s.enc ∧ ¬t.dec.ConfigDiffers s.dec := by
  rw [EncState.not_configDiffers_iff, DecState.not_configDiffers_iff]
  cases u with
  | enc =>
    cases h
    exact ⟨⟨rfl, rfl, rfl⟩, rfl, rfl⟩
  | dec =>
    cases h
    exact ⟨⟨rfl, rfl, rfl⟩, rfl, rfl⟩

/-- Only `ENC.CONFIG`, on the ENC port, changes ENC's configuration. -/
theorem dispatchWord_enc_configDiffers (h : dispatchWord u w s = .next t) (hc : t.enc.ConfigDiffers s.enc) :
    u = .enc ∧ ∃ c r a, decode u w = .ok (.encConfig c r a) := by
  obtain ⟨i, hd, hu, hw⟩ | ⟨-, hw⟩ := dispatchWord_cases u w s
  · obtain ⟨c, r, a, rfl⟩ := (exec_encNext (hw.symm.trans h)).config_of_configDiffers hc
    exact ⟨hu.symm, c, r, a, hd⟩
  · exact absurd hc (illegalCommand_keeps_config (hw.symm.trans h)).1

/-- Only `DEC.CONFIG`, on the DEC port, changes DEC's configuration. -/
theorem dispatchWord_dec_configDiffers (h : dispatchWord u w s = .next t) (hc : t.dec.ConfigDiffers s.dec) :
    u = .dec ∧ ∃ c r, decode u w = .ok (.decConfig c r) := by
  obtain ⟨i, hd, hu, hw⟩ | ⟨-, hw⟩ := dispatchWord_cases u w s
  · obtain ⟨c, r, rfl⟩ := (exec_decNext (hw.symm.trans h)).config_of_configDiffers hc
    exact ⟨hu.symm, c, r, hd⟩
  · exact absurd hc (illegalCommand_keeps_config (hw.symm.trans h)).2

/-- What a step can do to the two units: nothing, reset them, or run the word that the host collects (rule R245). -/
theorem step_units_cases (h : step s = .next t) :
    (t.enc = s.enc ∧ t.dec = s.dec) ∨ (∃ rest, s.host = .reset :: rest) ∨
      ∃ rest u w, s.host = .collect u :: rest ∧ s.inFlight u = some w ∧
        dispatchWord u w (State.setInFlight { s with host := rest } u none) = .next t := by
  obtain ⟨-, ⟨-, rfl⟩ | ⟨rest, hm⟩⟩ := step_cases h
  · exact .inl ⟨rfl, rfl⟩
  · obtain ⟨u, w, -, -, rfl⟩ | ⟨u, w, hh, hf, hw⟩ | ⟨u, -, rfl⟩ | ⟨hh, -⟩ := hm
    · exact .inl ⟨State.setInFlight_enc .., State.setInFlight_dec ..⟩
    · exact .inr (.inr ⟨rest, u, w, hh, hf, hw⟩)
    · exact .inl ⟨rfl, rfl⟩
    · exact .inr (.inl ⟨rest, hh⟩)

end ConfigurationChange

/-- Settles O41: but for reset only a collected word changes a unit, and of those only the unit's own CONFIG changes its
configuration. -/
theorem configurationChangesOnlyByConfigOrReset : Obligations.ConfigurationChangesOnlyByConfigOrReset := by
  intro s t h
  obtain ⟨he, hd⟩ | hreset | ⟨rest, u, w, hh, hf, hw⟩ := step_units_cases h
  · rw [he, hd]
    exact ⟨fun hc => absurd hc (EncState.not_configDiffers_iff.mpr ⟨rfl, rfl, rfl⟩),
      fun hc => absurd hc (DecState.not_configDiffers_iff.mpr ⟨rfl, rfl⟩)⟩
  · exact ⟨fun _ => .inl hreset, fun _ => .inl hreset⟩
  · refine ⟨fun hc => .inr ?_, fun hc => .inr ?_⟩
    · obtain ⟨rfl, c, r, a, hi⟩ := dispatchWord_enc_configDiffers hw (by rwa [State.setInFlight_enc])
      exact ⟨rest, w, c, r, a, hh, hf, hi⟩
    · obtain ⟨rfl, c, r, hi⟩ := dispatchWord_dec_configDiffers hw (by rwa [State.setInFlight_dec])
      exact ⟨rest, w, c, r, hh, hf, hi⟩

end Sys2Proof.Machine

/-! PROOFS. The pipeline statements (43_pipeline): the payload as the data of its groups; ENC over a whole frame and the
closed form of its output, with its bytes and its length; DEC over a whole frame; and the two units chained. -/

namespace Sys2Proof.Machine

/-! ### The payload as the data of its groups (rule R181) -/

theorem maxData_pos (s : Byte) : 0 < maxData s := by
  unfold maxData
  split <;> omega

section SplitRuns
variable {s c : Byte} {d x q : List Byte} {qs : List (List Byte)}

theorem splitRuns_sentinel (s : Byte) (x : List Byte) : splitRuns s (s :: x) = [] :: splitRuns s x := if_pos rfl

theorem splitRuns_cons_data (hc : c ≠ s) (hx : splitRuns s x = q :: qs) : splitRuns s (c :: x) = (c :: q) :: qs := by
  rw [splitRuns, if_neg hc, hx]

theorem exists_splitRuns_eq_cons (s : Byte) (x : List Byte) : ∃ q qs, splitRuns s x = q :: qs := by
  induction x with
  | nil => exact ⟨[], [], rfl⟩
  | cons c x ih =>
    by_cases hc : c = s
    · subst hc
      exact ⟨_, _, splitRuns_sentinel c x⟩
    · obtain ⟨q, qs, hx⟩ := ih
      exact ⟨_, _, splitRuns_cons_data hc hx⟩

theorem splitRuns_ne_nil (s : Byte) (x : List Byte) : splitRuns s x ≠ [] := by
  obtain ⟨q, qs, hx⟩ := exists_splitRuns_eq_cons s x
  simp [hx]

/-- Bytes other than the sentinel join the first run. -/
theorem splitRuns_append (hd : s ∉ d) (hx : splitRuns s x = q :: qs) : splitRuns s (d ++ x) = (d ++ q) :: qs := by
  induction d with
  | nil => exact hx
  | cons b d ih =>
    obtain ⟨hb, hd⟩ : s ≠ b ∧ s ∉ d := by simpa using hd
    exact splitRuns_cons_data (Ne.symm hb) (ih hd)

end SplitRuns

/-- A run cut into pieces of `m` bytes until `stop` holds of the length of what is left: `cutInner` and `cutLast` differ
only in when they stop. -/
def cutUntil (stop : Nat → Bool) (m : Nat) : Nat → List Byte → List (List Byte)
  | 0, q => [q]
  | fuel + 1, q => if stop q.length then [q] else q.take m :: cutUntil stop m fuel (q.drop m)

section Cut
variable {stop : Nat → Bool} {m fuel fuel' : Nat} {d q : List Byte}

theorem cutInner_eq_cutUntil : cutInner m fuel q = cutUntil (· < m) m fuel q := by
  induction fuel generalizing q with
  | zero => rfl
  | succ fuel ih => simp [cutInner, cutUntil, ih]

theorem cutLast_eq_cutUntil : cutLast m fuel q = cutUntil (· ≤ m) m fuel q := by
  induction fuel generalizing q with
  | zero => rfl
  | succ fuel ih => simp [cutLast, cutUntil, ih]

theorem cutUntil_stop (h : stop q.length = true) : cutUntil stop m fuel q = [q] := by
  cases fuel with
  | zero => rfl
  | succ fuel => exact if_pos h

/-- Fuel beyond the run's length makes no difference. -/
theorem cutUntil_fuel (h0 : stop 0 = true) (hm : 0 < m) (h : q.length ≤ fuel) (h' : q.length ≤ fuel') :
    cutUntil stop m fuel q = cutUntil stop m fuel' q := by
  induction fuel generalizing q fuel' with
  | zero =>
    have hq : stop q.length = true := by rwa [Nat.le_zero.mp h]
    rw [cutUntil_stop hq, cutUntil_stop hq]
  | succ fuel ih =>
    by_cases hq : stop q.length = true
    · rw [cutUntil_stop hq, cutUntil_stop hq]
    · have hpos : 0 < q.length := Nat.pos_of_ne_zero fun hz => hq (hz ▸ h0)
      obtain ⟨fuel', rfl⟩ := Nat.exists_eq_add_one_of_ne_zero (hpos.trans_le h').ne'
      rw [cutUntil, cutUntil, if_neg hq, if_neg hq]
      congr 1
      apply ih <;> rw [List.length_drop] <;> omega

/-- A full piece in front is cut off first. -/
theorem cutUntil_append (h0 : stop 0 = true) (hm : 0 < m) (hd : d.length = m) (h : stop (m + q.length) = false) :
    cutUntil stop m (d ++ q).length (d ++ q) = d :: cutUntil stop m q.length q := by
  obtain ⟨fuel, hf⟩ : ∃ fuel, (d ++ q).length = fuel + 1 :=
    Nat.exists_eq_add_one_of_ne_zero (by rw [List.length_append]; omega)
  have hlen : (d ++ q).length = m + q.length := by rw [List.length_append, hd]
  rw [hf, cutUntil, hlen, h, if_neg Bool.false_ne_true, List.take_left' hd, List.drop_left' hd,
    cutUntil_fuel h0 hm (by omega) (Nat.le_refl _)]

end Cut

theorem chunksOf_cons {m : Nat} {q : List Byte} {qs : List (List Byte)} (h : qs ≠ []) :
    chunksOf m (q :: qs) = cutInner m q.length q ++ chunksOf m qs := by
  cases qs with
  | nil => exact absurd rfl h
  | cons q' qs => rfl

/-- The data of the frame's groups, in order: the chunks of rule R181. -/
def frameChunks (s : Byte) (x : List Byte) : List (List Byte) := chunksOf (maxData s) (splitRuns s x)

section FrameChunks
variable {s : Byte} {d x : List Byte}

/-- A payload that fits a group and has no sentinel is the final group. -/
theorem frameChunks_last (hd : s ∉ d) (hl : d.length ≤ maxData s) : frameChunks s d = [d] := by
  have hsplit : splitRuns s d = [d] := by simpa using splitRuns_append (x := []) hd rfl
  rw [frameChunks, hsplit, chunksOf, cutLast_eq_cutUntil]
  exact cutUntil_stop (by simpa using hl)

/-- A sentinel ends a group that is not full. -/
theorem frameChunks_sentinel (hd : s ∉ d) (hl : d.length < maxData s) :
    frameChunks s (d ++ s :: x) = d :: frameChunks s x := by
  have hsplit : splitRuns s (d ++ s :: x) = d :: splitRuns s x := by
    simpa using splitRuns_append hd (splitRuns_sentinel s x)
  rw [frameChunks, hsplit, chunksOf_cons (splitRuns_ne_nil s x), cutInner_eq_cutUntil,
    cutUntil_stop (by simpa using hl)]
  rfl

/-- A full group is followed by the groups of what comes after it, whatever that begins with. -/
theorem frameChunks_full (hd : s ∉ d) (hl : d.length = maxData s) (hx : x ≠ []) :
    frameChunks s (d ++ x) = d :: frameChunks s x := by
  have hm := maxData_pos s
  obtain ⟨q, qs, hq⟩ := exists_splitRuns_eq_cons s x
  rw [frameChunks, frameChunks, splitRuns_append hd hq, hq]
  by_cases hqs : qs = []
  · subst hqs
    have hlen : 0 < q.length := by
      obtain ⟨c, x, rfl⟩ := List.exists_cons_of_ne_nil hx
      by_cases hc : c = s
      · subst hc
        rw [splitRuns_sentinel] at hq
        exact absurd (List.cons.inj hq).2 (splitRuns_ne_nil c x)
      · obtain ⟨q', qs', hq'⟩ := exists_splitRuns_eq_cons s x
        rw [splitRuns_cons_data hc hq'] at hq
        obtain rfl := (List.cons.inj hq).1
        exact Nat.succ_pos _
    rw [chunksOf, chunksOf, cutLast_eq_cutUntil, cutLast_eq_cutUntil]
    exact cutUntil_append (by simp) hm hl (decide_eq_false (by omega))
  · rw [chunksOf_cons hqs, chunksOf_cons hqs, cutInner_eq_cutUntil, cutInner_eq_cutUntil,
      cutUntil_append (by simpa using hm) hm hl (by simp)]
    rfl

end FrameChunks

/-- How a payload falls into the data of groups: the chunks of rule R181 said by what ends each group. -/
inductive Grouped (s : Byte) : List Byte → List (List Byte) → Prop where
  /-- What is left fits the final group. -/
  | last {d : List Byte} : s ∉ d → d.length ≤ maxData s → Grouped s d [d]
  /-- A sentinel ends a group that is not full. -/
  | ended {d x : List Byte} {ds : List (List Byte)} :
      s ∉ d → d.length < maxData s → Grouped s x ds → Grouped s (d ++ s :: x) (d :: ds)
  /-- A group is full, and more comes. -/
  | full {d x : List Byte} {ds : List (List Byte)} :
      s ∉ d → d.length = maxData s → x ≠ [] → Grouped s x ds → Grouped s (d ++ x) (d :: ds)

/-- The induction follows the encoder: `d` is the group being built, and `x` what is still to come. -/
theorem grouped_append {s : Byte} {d : List Byte} (x : List Byte) (hd : s ∉ d) (hl : d.length ≤ maxData s) :
    Grouped s (d ++ x) (frameChunks s (d ++ x)) := by
  have hm := maxData_pos s
  induction x generalizing d with
  | nil =>
    rw [List.append_nil, frameChunks_last hd hl]
    exact .last hd hl
  | cons c x ih =>
    have hnew (hc : c ≠ s) : Grouped s (c :: x) (frameChunks s (c :: x)) :=
      ih (d := [c]) (by simpa using Ne.symm hc) hm
    have hsent : Grouped s (s :: x) (frameChunks s (s :: x)) := by
      have h0 : frameChunks s (s :: x) = [] :: frameChunks s x := frameChunks_sentinel (d := []) List.not_mem_nil hm
      rw [h0]
      exact .ended (d := []) List.not_mem_nil hm (ih (d := []) List.not_mem_nil hm.le)
    obtain hlt | heq := Nat.lt_or_eq_of_le hl
    · by_cases hc : c = s
      · subst hc
        rw [frameChunks_sentinel hd hlt]
        exact .ended hd hlt (ih (d := []) List.not_mem_nil hm.le)
      · rw [List.append_cons]
        exact ih (by simp [hd, Ne.symm hc]) (by simpa using hlt)
    · rw [frameChunks_full hd heq (List.cons_ne_nil c x)]
      refine .full hd heq (List.cons_ne_nil c x) ?_
      by_cases hc : c = s
      · exact hc ▸ hsent
      · exact hnew hc

theorem grouped_frameChunks (s : Byte) (x : List Byte) : Grouped s x (frameChunks s x) :=
  grouped_append (d := []) x List.not_mem_nil (Nat.zero_le _)

theorem Grouped.ne_nil {s : Byte} {x : List Byte} {ds : List (List Byte)} (h : Grouped s x ds) : ds ≠ [] := by
  cases h <;> exact List.cons_ne_nil _ _

theorem frameChunks_ne_nil (s : Byte) (x : List Byte) : frameChunks s x ≠ [] := (grouped_frameChunks s x).ne_nil

theorem wireGroups_cons {s : Byte} {r : Bool} {d : List Byte} {ds : List (List Byte)} (h : ds ≠ []) :
    wireGroups s r (d :: ds) = wireGroup s d ++ wireGroups s r ds := by
  cases ds with
  | nil => exact absurd rfl h
  | cons d' ds => rfl

theorem wireGroup_nil (s : Byte) : wireGroup s [] = [freshCode s] := by
  rw [wireGroup, List.length_nil, ← freshCode_toNat, BitVec.ofNat_toNat, BitVec.setWidth_eq]

/-- The closed form over the frame's chunks. -/
theorem closedFrame_eq (x : List Byte) (s : Byte) (r a : Bool) :
    closedFrame x s r a = wireGroups s r (frameChunks s x) ++ if a then [s] else [] := rfl

/-! ### ENC over a whole frame (rule R180, rule R181) -/

/-- The unit that `ENC.BYTE` leaves (rule R103). -/
def EncState.afterByte (e : EncState) (c : Byte) : EncState :=
  if c = e.cfgS then e.emptied else if e.code = maxCode e.cfgS then e.emptied.pushed c else e.pushed c

/-- What the port's log gets from the payload bytes `x` and the CLOSE after them. -/
def EncState.frameLog : EncState → List Byte → List Transaction
  | e, [] => [⟨e.finalGroup ++ e.terminator, .ok⟩]
  | e, c :: x => ⟨e.byteOut c, .ok⟩ :: (e.afterByte c).frameLog x

section AfterByte
variable {e : EncState} {c : Byte}

theorem EncState.inv_afterByte_inv (h : e.Inv) (c : Byte) : (e.afterByte c).Inv := by
  unfold EncState.afterByte
  split_ifs with hc hf
  · exact e.emptied_inv
  · exact EncState.inv_pushed_inv e.emptied_inv e.emptied_not_full hc
  · exact EncState.inv_pushed_inv h hf hc

theorem EncState.afterByte_emptied (e : EncState) (c : Byte) : (e.afterByte c).emptied = e.emptied := by
  unfold EncState.afterByte
  split_ifs <;> rfl

@[simp] theorem EncState.afterByte_err (e : EncState) (c : Byte) : (e.afterByte c).err = e.err := by
  simpa using congrArg EncState.err (e.afterByte_emptied c)

@[simp] theorem EncState.afterByte_cfgS (e : EncState) (c : Byte) : (e.afterByte c).cfgS = e.cfgS := by
  simpa using congrArg EncState.cfgS (e.afterByte_emptied c)

@[simp] theorem EncState.afterByte_cfgR (e : EncState) (c : Byte) : (e.afterByte c).cfgR = e.cfgR := by
  simpa using congrArg EncState.cfgR (e.afterByte_emptied c)

@[simp] theorem EncState.afterByte_cfgA (e : EncState) (c : Byte) : (e.afterByte c).cfgA = e.cfgA := by
  simpa using congrArg EncState.cfgA (e.afterByte_emptied c)

theorem EncState.inv_length_data_le (h : e.Inv) : e.data.length ≤ maxData e.cfgS := by
  rw [EncState.inv_length_data h]
  obtain ⟨-, hn, -⟩ := h
  exact hn

theorem EncState.inv_group_eq_wireGroup (h : e.Inv) : e.group = wireGroup e.cfgS e.data := by
  have hlen := EncState.inv_length_data h
  obtain ⟨hcode, hn, -⟩ := h
  rw [EncState.group, wireGroup, hlen, byte_eq_iff.mpr (hcode.trans (lengthByte_byte_toNat hn).symm)]

theorem EncState.inv_finalGroup_eq_wireFinal (h : e.Inv) : e.finalGroup = wireFinal e.cfgS e.cfgR e.data := by
  have hlen := EncState.inv_length_data h
  have hgroup := EncState.inv_group_eq_wireGroup h
  obtain ⟨hcode, -⟩ := h
  unfold EncState.finalGroup wireFinal
  rw [hgroup, hlen, ← hcode]
  rfl

end AfterByte

section ClosedFrame
variable {s : Byte} {r a : Bool} {d x : List Byte}

theorem closedFrame_last (hd : s ∉ d) (hl : d.length ≤ maxData s) :
    closedFrame d s r a = wireFinal s r d ++ if a then [s] else [] := by
  rw [closedFrame_eq, frameChunks_last hd hl]
  rfl

theorem closedFrame_cons {y : List Byte} (h : frameChunks s x = d :: frameChunks s y) :
    closedFrame x s r a = wireGroup s d ++ closedFrame y s r a := by
  rw [closedFrame_eq, closedFrame_eq, h, wireGroups_cons (frameChunks_ne_nil s y), List.append_assoc]

theorem closedFrame_sentinel (hd : s ∉ d) (hl : d.length < maxData s) :
    closedFrame (d ++ s :: x) s r a = wireGroup s d ++ closedFrame x s r a :=
  closedFrame_cons (frameChunks_sentinel hd hl)

theorem closedFrame_full (hd : s ∉ d) (hl : d.length = maxData s) (hx : x ≠ []) :
    closedFrame (d ++ x) s r a = wireGroup s d ++ closedFrame x s r a :=
  closedFrame_cons (frameChunks_full hd hl hx)

end ClosedFrame

section FrameLog
variable {e : EncState}

/-- One payload byte: what BYTE emits, and then the frame of the group it leaves and of the rest. -/
theorem EncState.inv_byteOut_append_closedFrame (h : e.Inv) (c : Byte) (x : List Byte) (r a : Bool) :
    e.byteOut c ++ closedFrame ((e.afterByte c).data ++ x) e.cfgS r a = closedFrame (e.data ++ c :: x) e.cfgS r a := by
  have hd := EncState.inv_cfgS_notMem_data h
  have hlen := EncState.inv_length_data h
  have hgroup := EncState.inv_group_eq_wireGroup h
  have hempty : closedFrame (e.cfgS :: x) e.cfgS r a = [freshCode e.cfgS] ++ closedFrame x e.cfgS r a :=
    wireGroup_nil e.cfgS ▸ closedFrame_sentinel (d := []) List.not_mem_nil (maxData_pos _)
  unfold EncState.byteOut EncState.afterByte
  by_cases hf : e.code = maxCode e.cfgS
  · rw [closedFrame_full hd (hlen.trans ((EncState.inv_full_iff h).mp hf)) (List.cons_ne_nil c x), ← hgroup]
    by_cases hc : c = e.cfgS
    · simp [hf, hc, hempty]
    · simp [hf, hc]
  · by_cases hc : c = e.cfgS
    · rw [hc, closedFrame_sentinel hd (hlen.trans_lt (EncState.inv_lt_of_not_full h hf)), ← hgroup]
      simp [hf]
    · simp [hf, hc]

/-- What a unit with the group `e.data` emits for `x` and CLOSE is the frame of all of it: the group being built stands
for the payload bytes it holds. -/
theorem EncState.inv_frameLog_out (h : e.Inv) (x : List Byte) :
    (e.frameLog x).flatMap Transaction.out = closedFrame (e.data ++ x) e.cfgS e.cfgR e.cfgA := by
  induction x generalizing e with
  | nil =>
    rw [List.append_nil, closedFrame_last (EncState.inv_cfgS_notMem_data h) (EncState.inv_length_data_le h),
      ← EncState.inv_finalGroup_eq_wireFinal h]
    simp [EncState.frameLog, EncState.terminator]
  | cons c x ih =>
    rw [← EncState.inv_byteOut_append_closedFrame h, EncState.frameLog, List.flatMap_cons,
      ih (EncState.inv_afterByte_inv h c)]
    simp

theorem EncState.frameLog_resp (e : EncState) (x : List Byte) :
    (e.frameLog x).map Transaction.resp = List.replicate (x.length + 1) .ok := by
  induction x generalizing e with
  | nil => rfl
  | cons c x ih =>
    rw [EncState.frameLog, List.map_cons, ih]
    rfl

end FrameLog

/-! ### Commands one after another on one unit -/

@[simp] theorem andThen_next {α β : Type} (a : α) (f : α → Host.Outcome β Fault Refusal) :
    andThen (.next a) f = f a := rfl

/-- The machine after commands that leave ENC as `e` and add `ts` to its port's log. -/
def State.afterEnc (s : State) (e : EncState) (ts : List Transaction) : State :=
  { s with enc := e, encPort := { s.encPort with log := s.encPort.log ++ ts } }

/-- The machine after commands that leave DEC as `d` and add `ts` to its port's log. -/
def State.afterDec (s : State) (d : DecState) (ts : List Transaction) : State :=
  { s with dec := d, decPort := { s.decPort with log := s.decPort.log ++ ts } }

theorem PortState.emittedSince_of_log {p q : PortState} {ts : List Transaction} (h : q.log = p.log ++ ts) :
    p.emittedSince q = ts.flatMap Transaction.out := by
  rw [PortState.emittedSince, h, List.drop_left]

section After
variable (s : State) (e e' : EncState) (d d' : DecState) (t : Transaction) (ts ts' : List Transaction)

@[simp] theorem State.afterEnc_enc : (s.afterEnc e ts).enc = e := rfl
@[simp] theorem State.afterEnc_dec : (s.afterEnc e ts).dec = s.dec := rfl
@[simp] theorem State.afterEnc_encLog : (s.afterEnc e ts).encPort.log = s.encPort.log ++ ts := rfl
@[simp] theorem State.afterEnc_decPort : (s.afterEnc e ts).decPort = s.decPort := rfl
@[simp] theorem State.afterDec_dec : (s.afterDec d ts).dec = d := rfl
@[simp] theorem State.afterDec_enc : (s.afterDec d ts).enc = s.enc := rfl
@[simp] theorem State.afterDec_decLog : (s.afterDec d ts).decPort.log = s.decPort.log ++ ts := rfl
@[simp] theorem State.afterDec_encPort : (s.afterDec d ts).encPort = s.encPort := rfl

@[simp] theorem State.afterEnc_afterEnc : (s.afterEnc e ts).afterEnc e' ts' = s.afterEnc e' (ts ++ ts') := by
  simp [State.afterEnc]

@[simp] theorem State.afterDec_afterDec : (s.afterDec d ts).afterDec d' ts' = s.afterDec d' (ts ++ ts') := by
  simp [State.afterDec]

@[simp] theorem State.afterEnc_emitted :
    s.encPort.emittedSince (s.afterEnc e ts).encPort = ts.flatMap Transaction.out :=
  PortState.emittedSince_of_log rfl

@[simp] theorem State.afterDec_emitted :
    s.decPort.emittedSince (s.afterDec d ts).decPort = ts.flatMap Transaction.out :=
  PortState.emittedSince_of_log rfl

@[simp] theorem State.afterEnc_lastResponse :
    (s.afterEnc e [t]).encPort.lastResponse = some t.resp := by
  simp [PortState.lastResponse]

@[simp] theorem State.afterDec_lastResponse :
    (s.afterDec d [t]).decPort.lastResponse = some t.resp := by
  simp [PortState.lastResponse]

@[simp] theorem State.afterDec_append_lastResponse :
    (s.afterDec d (ts ++ [t])).decPort.lastResponse = some t.resp := by
  simp [PortState.lastResponse]

end After

section EncFrame
variable {s : State}

theorem exec_encByte_afterEnc (h : s.enc.Inv) (herr : s.enc.err = 0) (c : Byte) :
    exec (.encByte c) s = .next (s.afterEnc (s.enc.afterByte c) [⟨s.enc.byteOut c, .ok⟩]) :=
  exec_encByte_running herr (EncState.inv_byte_byteOut h c)

theorem exec_encClose_afterEnc (h : s.enc.Inv) (herr : s.enc.err = 0) :
    exec .encClose s = .next (s.afterEnc s.enc.emptied [⟨s.enc.finalGroup ++ s.enc.terminator, .ok⟩]) :=
  exec_encClose_running herr (EncState.inv_close_ok h)

/-- The payload bytes one by one, from any count, and then CLOSE (rule R89). -/
theorem encWriteFrom_close (h : s.enc.Inv) (herr : s.enc.err = 0) (count : Nat) (x : List Byte) :
    (andThen (encWriteFrom count x s) fun w =>
      if w.resp = some .ok then
        andThen (exec .encClose w.st) fun t => .next ⟨t, w.count, t.encPort.lastResponse⟩
      else .next w) =
      .next ⟨s.afterEnc s.enc.emptied (s.enc.frameLog x), count + x.length, some .ok⟩ := by
  induction x generalizing s count with
  | nil => simp [encWriteFrom, EncState.frameLog, exec_encClose_afterEnc h herr]
  | cons c x ih =>
    have hnext := ih (s := s.afterEnc (s.enc.afterByte c) [⟨s.enc.byteOut c, .ok⟩]) (EncState.inv_afterByte_inv h c)
      (by simpa using herr) (count + 1)
    rw [encWriteFrom, exec_encByte_afterEnc h herr, andThen_next, State.afterEnc_lastResponse, if_pos rfl, hnext]
    simp [EncState.frameLog, EncState.afterByte_emptied, Nat.add_assoc, Nat.add_comm 1]

theorem encFrame_afterEnc (h : s.enc.Inv) (herr : s.enc.err = 0) (x : List Byte) :
    encFrame x s = .next ⟨s.afterEnc s.enc.emptied (s.enc.frameLog x), x.length, some .ok⟩ :=
  (encWriteFrom_close h herr 0 x).trans (by rw [Nat.zero_add])

end EncFrame

/-- The unit that `ENC.CONFIG s, r, a` leaves (rule R161). -/
def EncState.configured (s : Byte) (r a : Bool) : EncState := ⟨s, r, a, freshCode s, 0, [], 0⟩

theorem EncState.configured_inv (s : Byte) (r a : Bool) : (EncState.configured s r a).Inv :=
  EncState.emptied_inv (EncState.configured s r a)

theorem exec_encConfig_afterEnc (st : State) (s : Byte) (r a : Bool) :
    exec (.encConfig s r a) st = .next (st.afterEnc (EncState.configured s r a) [⟨[], .ok⟩]) :=
  exec_encConfig st s r a

/-- Settles O49: CONFIG leaves an empty group, and the frame of that group and `x` is `EncState.inv_frameLog_out`. -/
theorem encodeFrameClosedForm : Obligations.EncodeFrameClosedForm := by
  intro x s r a st
  have hinv := EncState.configured_inv s r a
  refine ⟨st.afterEnc (EncState.configured s r a) (⟨[], .ok⟩ :: (EncState.configured s r a).frameLog x),
    ?_, rfl, rfl, ?_⟩
  · have hout : (EncState.frameLog _ x).flatMap Transaction.out = closedFrame x s r a :=
      EncState.inv_frameLog_out hinv x
    have hframe := encFrame_afterEnc (s := st.afterEnc (EncState.configured s r a) [⟨[], .ok⟩]) hinv rfl x
    rw [encodeFrame, exec_encConfig_afterEnc, andThen_next, hframe, andThen_next, State.afterEnc_afterEnc,
      State.afterEnc_emitted, List.singleton_append, List.flatMap_cons, List.nil_append]
    exact congrArg (fun w => Host.Outcome.next (FrameResult.mk _ w _)) hout
  · rw [PortState.responses, State.afterEnc_encLog, List.map_append, List.map_cons, EncState.frameLog_resp]
    rfl

/-! ### Bytes and length of the closed form (rule R185 to rule R188) -/

theorem encodeFrame_bytes (x : List Byte) (s : Byte) (r a : Bool) (st : State) :
    ∃ t, encodeFrame x s r a st = .next ⟨t, closedFrame x s r a, some .ok⟩ := by
  obtain ⟨t, ht, -⟩ := encodeFrameClosedForm x s r a st
  exact ⟨t, ht⟩

theorem length_closedFrame (x : List Byte) (s : Byte) (r a : Bool) :
    (closedFrame x s r a).length = (wireGroups s r (frameChunks s x)).length + if a then 1 else 0 := by
  rw [closedFrame_eq, List.length_append]
  cases a <;> rfl

section FinalGroup
variable {s : Byte} {d : List Byte}

theorem wireFinal_shrunk {last : Byte} (hl : d.getLast? = some last) (hlt : lengthByte s d.length < last.toNat) :
    wireFinal s true d = last :: d.dropLast := by
  simp [wireFinal, hl, hlt]

theorem wireFinal_unshrunk {r : Bool} (h : ¬(r = true ∧ shrinkApplies s d = true)) :
    wireFinal s r d = wireGroup s d := by
  unfold wireFinal
  unfold shrinkApplies at h
  split
  next last hl => exact if_neg (by simpa [hl] using h)
  next => rfl

theorem wireFinal_plain (s : Byte) (d : List Byte) : wireFinal s false d = wireGroup s d :=
  wireFinal_unshrunk (by simp)

/-- The shrink applies to a group that is not empty, and reads its last byte (rule R85). -/
theorem shrinkApplies_iff :
    shrinkApplies s d = true ↔ ∃ front last, d = front ++ [last] ∧ lengthByte s d.length < last.toNat := by
  obtain rfl | ⟨front, last, rfl⟩ := List.eq_nil_or_concat d
  · simp [shrinkApplies]
  · simp [shrinkApplies]

/-- The shrink drops the length byte (rule R85). -/
theorem length_wireGroup_eq (s : Byte) (d : List Byte) :
    (wireGroup s d).length = (wireFinal s true d).length + if shrinkApplies s d = true then 1 else 0 := by
  by_cases h : shrinkApplies s d = true
  · obtain ⟨front, last, rfl, hlt⟩ := shrinkApplies_iff.mp h
    rw [wireFinal_shrunk (by simp) hlt, if_pos h]
    simp [wireGroup]
  · rw [wireFinal_unshrunk (by simp [h]), if_neg h, Nat.add_zero]

end FinalGroup

/-- Only the final group differs between the modes (rule R186). -/
theorem length_wireGroups_eq (s : Byte) (ds : List (List Byte)) :
    (wireGroups s false ds).length =
      (wireGroups s true ds).length + if shrinkApplies s (ds.getLastD []) = true then 1 else 0 := by
  induction ds with
  | nil => rfl
  | cons d ds ih =>
    by_cases hds : ds = []
    · subst hds
      exact (congrArg List.length (wireFinal_plain s d)).trans (length_wireGroup_eq s d)
    · obtain ⟨d', ds, rfl⟩ := List.exists_cons_of_ne_nil hds
      rw [wireGroups_cons hds, wireGroups_cons hds, List.length_append, List.length_append, ih, Nat.add_assoc]
      rfl

/-- Settles O52: the closed form in both modes, group by group. -/
theorem reducedModeNeverExpands : Obligations.ReducedModeNeverExpands := by
  intro x s a st
  obtain ⟨t, ht⟩ := encodeFrame_bytes x s true a st
  obtain ⟨t', ht'⟩ := encodeFrame_bytes x s false a st
  have hlen : (closedFrame x s false a).length =
      (closedFrame x s true a).length + if shrinkApplies s (finalChunk x s) = true then 1 else 0 := by
    rw [length_closedFrame, length_closedFrame, length_wireGroups_eq, Nat.add_right_comm]
    rfl
  exact ⟨t, t', _, _, ht, ht', hlen, hlen ▸ Nat.le_add_right _ _⟩

/-- Every chunk is data that a group can hold (rule R80, rule R181). -/
theorem Grouped.chunk_fits {s : Byte} {x : List Byte} {ds : List (List Byte)} (h : Grouped s x ds) :
    ∀ d ∈ ds, s ∉ d ∧ d.length ≤ maxData s := by
  induction h with
  | last hd hl => simpa using ⟨hd, hl⟩
  | ended hd hl _ ih => exact List.forall_mem_cons.mpr ⟨⟨hd, hl.le⟩, ih⟩
  | full hd hl _ _ ih => exact List.forall_mem_cons.mpr ⟨⟨hd, hl.le⟩, ih⟩

section SentinelFree
variable {s : Byte} {d : List Byte}

theorem sentinel_notMem_wireGroup (hd : s ∉ d) (hl : d.length ≤ maxData s) : s ∉ wireGroup s d := by
  obtain ⟨-, -, hne, -⟩ := lengthByte_bounds s hl
  have hs : s ≠ BitVec.ofNat 8 (lengthByte s d.length) := fun h =>
    hne ((lengthByte_byte_toNat hl).symm.trans (congrArg BitVec.toNat h.symm))
  exact List.not_mem_cons_of_ne_of_not_mem hs hd

theorem sentinel_notMem_wireFinal (r : Bool) (hd : s ∉ d) (hl : d.length ≤ maxData s) : s ∉ wireFinal s r d := by
  by_cases h : r = true ∧ shrinkApplies s d = true
  · obtain ⟨rfl, h⟩ := h
    obtain ⟨front, last, rfl, hlt⟩ := shrinkApplies_iff.mp h
    rw [wireFinal_shrunk (by simp) hlt]
    simpa [and_comm] using hd
  · rw [wireFinal_unshrunk h]
    exact sentinel_notMem_wireGroup hd hl

theorem sentinel_notMem_wireGroups (r : Bool) {ds : List (List Byte)}
    (h : ∀ d ∈ ds, s ∉ d ∧ d.length ≤ maxData s) : s ∉ wireGroups s r ds := by
  induction ds with
  | nil => exact List.not_mem_nil
  | cons d ds ih =>
    obtain ⟨⟨hd, hl⟩, hds⟩ := List.forall_mem_cons.mp h
    by_cases hnil : ds = []
    · subst hnil
      exact sentinel_notMem_wireFinal r hd hl
    · rw [wireGroups_cons hnil, List.mem_append]
      exact not_or_intro (sentinel_notMem_wireGroup hd hl) (ih hds)

end SentinelFree

/-- Settles O51: the groups hold no sentinel, and the closed form ends with the terminator alone. -/
theorem sentinelFreedom : Obligations.SentinelFreedom := by
  intro x s r st
  have hfree := sentinel_notMem_wireGroups r (grouped_frameChunks s x).chunk_fits
  obtain ⟨t, ht⟩ := encodeFrame_bytes x s r false st
  obtain ⟨t', ht'⟩ := encodeFrame_bytes x s r true st
  exact ⟨⟨t, _, ht, by simpa [closedFrame_eq] using hfree⟩, ⟨t', _, ht', hfree⟩⟩

/-! ### The length bound (rule R188) -/

theorem wireGroups_plain_cons (s : Byte) (d : List Byte) (ds : List (List Byte)) :
    wireGroups s false (d :: ds) = wireGroup s d ++ wireGroups s false ds := by
  cases ds with
  | nil => exact (wireFinal_plain s d).trans (List.append_nil _).symm
  | cons d' ds => rfl

theorem length_wireGroups_plain (s : Byte) (ds : List (List Byte)) :
    (wireGroups s false ds).length = ds.flatten.length + ds.length := by
  induction ds with
  | nil => rfl
  | cons d ds ih =>
    rw [wireGroups_plain_cons, List.length_append, ih]
    simp only [wireGroup, List.flatten_cons, List.length_append, List.length_cons]
    omega

section GroupsFor
variable {m n : Nat}

theorem groupsFor_of_le (hm : 0 < m) (h : n ≤ m) : groupsFor n m = 1 := by
  have hlt : (n + m - 1) / m < 2 := (Nat.div_lt_iff_lt_mul hm).mpr (by omega)
  rw [groupsFor]
  omega

theorem groupsFor_add_self (hm : 0 < m) (hn : 0 < n) : groupsFor (m + n) m = groupsFor n m + 1 := by
  have hpos : 1 ≤ (n + m - 1) / m := (Nat.le_div_iff_mul_le hm).mpr (by omega)
  have hsub : m + n + m - 1 = n + m - 1 + m := by omega
  rw [groupsFor, groupsFor, hsub, Nat.add_div_right _ hm]
  omega

theorem groupsFor_mono {n' : Nat} (h : n ≤ n') : groupsFor n m ≤ groupsFor n' m := by
  have := Nat.div_le_div_right (c := m) (show n + m - 1 ≤ n' + m - 1 by omega)
  rw [groupsFor, groupsFor]
  omega

end GroupsFor

section LengthBound
variable {s : Byte} {x : List Byte} {ds : List (List Byte)}

/-- Each sentinel costs the group it ends and is not sent; each full group costs `M(s)` payload bytes. -/
theorem Grouped.length_le (h : Grouped s x ds) :
    ds.flatten.length + ds.length ≤ x.length + groupsFor x.length (maxData s) := by
  have hm := maxData_pos s
  induction h with
  | last hd hl => simp [groupsFor_of_le hm hl]
  | @ended d x ds _ _ _ ih =>
    have hmono := groupsFor_mono (m := maxData s) (show x.length ≤ (d ++ s :: x).length by simp; omega)
    simp only [List.flatten_cons, List.length_append, List.length_cons] at hmono ⊢
    omega
  | full hd hl hx _ ih =>
    have hadd := groupsFor_add_self hm (List.length_pos_of_ne_nil hx)
    simp only [List.flatten_cons, List.length_append, List.length_cons, hl, hadd]
    omega

/-- Without a sentinel every group but the final one is full. -/
theorem Grouped.length_eq (h : Grouped s x ds) (hs : s ∉ x) :
    ds.flatten.length + ds.length = x.length + groupsFor x.length (maxData s) := by
  have hm := maxData_pos s
  induction h with
  | last hd hl => simp [groupsFor_of_le hm hl]
  | ended => simp at hs
  | full hd hl hx _ ih =>
    have hrest := ih fun h => hs (List.mem_append_right _ h)
    have hadd := groupsFor_add_self hm (List.length_pos_of_ne_nil hx)
    simp only [List.flatten_cons, List.length_append, List.length_cons, hl, hadd]
    omega

end LengthBound

/-- Settles O54: the plain frame is the payload's chunks and one length byte each; reduced mode never adds to it. -/
theorem outputLengthBound : Obligations.OutputLengthBound := by
  intro x s r a st
  have hg := grouped_frameChunks s x
  have hplain := length_wireGroups_plain s (frameChunks s x)
  have hr : (wireGroups s r (frameChunks s x)).length ≤ (wireGroups s false (frameChunks s x)).length := by
    cases r with
    | false => exact Nat.le_refl _
    | true => exact length_wireGroups_eq s _ ▸ Nat.le_add_right _ _
  obtain ⟨t, ht⟩ := encodeFrame_bytes x s r a st
  refine ⟨t, _, ht, ?_, fun hr0 hs => ?_⟩
  · rw [length_closedFrame]
    exact Nat.add_le_add_right (hr.trans (hplain.trans_le hg.length_le)) _
  · rw [length_closedFrame, hr0, hplain, hg.length_eq hs]

/-! ### Frames at the boundary (rule R187) -/

theorem wireGroup_full {s : Byte} {d : List Byte} (h : d.length = maxData s) : wireGroup s d = maxCode s :: d := by
  obtain ⟨-, -, -, htop⟩ := lengthByte_bounds s h.le
  rw [wireGroup, htop.mp h, BitVec.ofNat_toNat, BitVec.setWidth_eq]

/-- Settles O53: the closed form of no byte, of one full group, and of a full group and a group of one byte. -/
theorem boundaryFrames : Obligations.BoundaryFrames := by
  intro s d x st hx hlen hd
  have hempty : closedFrame [] s false false = [freshCode s] := by
    rw [closedFrame_last List.not_mem_nil (Nat.zero_le _), wireFinal_plain, wireGroup_nil]
    rfl
  have hfull : closedFrame x s false false = maxCode s :: x := by
    rw [closedFrame_last hx hlen.le, wireFinal_plain, wireGroup_full hlen]
    exact List.append_nil _
  have hmore : closedFrame (x ++ [d]) s false false =
      maxCode s :: x ++ [BitVec.ofNat 8 (lengthByte s 1), d] := by
    rw [closedFrame_full hx hlen (List.cons_ne_nil d []), wireGroup_full hlen,
      closedFrame_last (d := [d]) (by simpa using Ne.symm hd) (maxData_pos s), wireFinal_plain]
    rfl
  refine ⟨hempty ▸ encodeFrame_bytes .., hfull ▸ encodeFrame_bytes .., hmore ▸ encodeFrame_bytes ..,
    rfl, ?_, ?_, ?_⟩
  · decide
  · decide
  · decide

/-! ### DEC over bytes that it accepts (rule R131 to rule R135) -/

/-- `d.Reads w out d'`: from `d` the running unit answers OK to every byte of `w`, emits `out` and ends as `d'`. -/
inductive DecState.Reads : DecState → List Byte → List Byte → DecState → Prop where
  | nil {d : DecState} : DecState.Reads d [] [] d
  | cons {d d1 d' : DecState} {c : Byte} {w o out : List Byte} :
      d.byte c = .ok ⟨d1, o, .ok⟩ → DecState.Reads d1 w out d' → DecState.Reads d (c :: w) (o ++ out) d'

/-- What the end of the frame makes of the byte still pending: COBS/R reads it as data (rule R132, rule R135). -/
def DecState.pending (d : DecState) : List Byte := if d.codeIndex = 0 then [] else [d.code]

theorem DecState.pending_idle {d : DecState} (h : d.codeIndex = 0) : d.pending = [] := if_pos h

theorem DecState.pending_owed {d : DecState} (h : d.codeIndex ≠ 0) : d.pending = [d.code] := if_neg h

/-- The end of the frame is no error: nothing is owed, or COBS/R reads the pending byte. -/
def DecState.CanEnd (d : DecState) : Prop := d.codeIndex = 0 ∨ d.cfgR = true

section Reads
variable {d d' d'' : DecState} {c : Byte} {w w' out out' : List Byte}

theorem DecState.Reads.append (h : d.Reads w out d') (h' : d'.Reads w' out' d'') :
    d.Reads (w ++ w') (out ++ out') d'' := by
  induction h with
  | nil => exact h'
  | cons hb _ ih =>
    rw [List.append_assoc]
    exact .cons hb (ih h')

/-- A byte answered OK moves only `code` and `codeIndex`. -/
theorem DecState.byte_ok_initFrame {o : List Byte} (h : d.byte c = .ok ⟨d', o, .ok⟩) :
    d'.initFrame = d.initFrame := by
  obtain ⟨-, hb⟩ | ⟨-, -, hb⟩ | ⟨-, -, -, -, hb⟩ | ⟨-, -, -, k, -, hb⟩ := d.byte_cases c
  all_goals rw [hb] at h
  · have hx := Except.ok.inj h
    have hresp := d.terminatorCase_resp
    rw [hx] at hresp
    simp at hresp
  · cases h
    rfl
  · cases h
  · cases h
    rfl

theorem DecState.byte_ok_err {o : List Byte} (h : d.byte c = .ok ⟨d', o, .ok⟩) : d'.err = d.err := by
  simpa using congrArg DecState.err (DecState.byte_ok_initFrame h)

theorem DecState.Reads.initFrame_eq (h : d.Reads w out d') : d'.initFrame = d.initFrame := by
  induction h with
  | nil => rfl
  | cons hb _ ih => exact ih.trans (DecState.byte_ok_initFrame hb)

theorem DecState.Reads.err_eq (h : d.Reads w out d') : d'.err = d.err := by
  simpa using congrArg DecState.err h.initFrame_eq

theorem DecState.Reads.cfgS_eq (h : d.Reads w out d') : d'.cfgS = d.cfgS := by
  simpa using congrArg DecState.cfgS h.initFrame_eq

theorem DecState.close_canEnd (h : d.CanEnd) : d.close = ⟨d.initFrame, d.pending, .ok⟩ := by
  by_cases hk : d.codeIndex = 0
  · rw [DecState.pending_idle hk, DecState.close_idle hk, DecState.initFrame_idle hk]
  · rw [DecState.pending_owed hk, DecState.close_reduced (h.resolve_left hk) hk]

theorem DecState.terminatorCase_canEnd (h : d.CanEnd) :
    d.terminatorCase = ⟨d.initFrame, d.pending, .endOfFrame⟩ := by
  by_cases hk : d.codeIndex = 0
  · rw [DecState.pending_idle hk, DecState.terminatorCase_idle hk, DecState.initFrame_idle hk]
  · rw [DecState.pending_owed hk, DecState.terminatorCase_reduced (h.resolve_left hk) hk]
    rfl

/-- The data bytes that are owed are passed on. -/
theorem DecState.reads_data {k : Nat} (hs : d.cfgS ∉ w) (hk : w.length + k < 256)
    (hd : d.codeIndex = BitVec.ofNat 8 (w.length + k)) : d.Reads w w { d with codeIndex := BitVec.ofNat 8 k } := by
  induction w generalizing d with
  | nil =>
    rw [List.length_nil, Nat.zero_add] at hd
    rw [← hd]
    exact .nil
  | cons c w ih =>
    obtain ⟨hc, hw⟩ : d.cfgS ≠ c ∧ d.cfgS ∉ w := by simpa using hs
    rw [List.length_cons] at hk hd
    have hnum : d.codeIndex.toNat = w.length + 1 + k := by rw [hd, BitVec.toNat_ofNat, Nat.mod_eq_of_lt hk]
    have hne : d.codeIndex ≠ 0 := fun h0 => by
      rw [h0] at hnum
      exact absurd hnum (by simp; omega)
    have hpred : d.codeIndex - 1 = BitVec.ofNat 8 (w.length + k) := by
      rw [byte_eq_iff, pred_toNat (by omega), BitVec.toNat_ofNat, Nat.mod_eq_of_lt (by omega)]
      omega
    exact .cons (o := [c]) (DecState.byte_data (Ne.symm hc) hne)
      (ih (d := { d with codeIndex := d.codeIndex - 1 }) hw (by omega) hpred)

/-- A length byte and data after it; `k` more bytes are then owed (rule R134). -/
theorem DecState.reads_group {k : Nat} (hidle : d.codeIndex = 0) (hs : d.cfgS ∉ w)
    (hc : dataCount d.cfgS c = some (w.length + k)) :
    d.Reads (c :: w) (d.rebuilt ++ w) { d with code := c, codeIndex := BitVec.ofNat 8 k } := by
  obtain ⟨hle, hlen⟩ := dataCount_eq_some_iff.mp hc
  obtain ⟨hpos, -, hne, -⟩ := lengthByte_bounds d.cfgS hle
  have hcs : c ≠ d.cfgS := fun h => hne (hlen.symm.trans (congrArg BitVec.toNat h))
  have hc0 : ¬(d.cfgS ≠ 0x00 ∧ c = 0x00) := fun ⟨_, h⟩ => by
    rw [h] at hlen
    exact absurd (hlen ▸ hpos) (by decide)
  obtain ⟨n, hn, hbyte⟩ := DecState.lengthCase_ok hcs hc0
  have hnum : n = BitVec.ofNat 8 (w.length + k) := by
    rw [← Option.some.inj (hn.symm.trans hc), BitVec.ofNat_toNat, BitVec.setWidth_eq]
  have hlt : w.length + k < 256 := by have := dataCount_le hc; omega
  refine .cons ((DecState.byte_lengthCase hcs hidle).trans hbyte) ?_
  exact DecState.reads_data (d := { d with code := c, codeIndex := n }) hs hlt hnum

/-- DEC after a whole group of `n` data bytes: its length byte is kept, and nothing is owed (rule R134). -/
def DecState.afterGroup (d : DecState) (n : Nat) : DecState :=
  { d with code := BitVec.ofNat 8 (lengthByte d.cfgS n), codeIndex := 0 }

/-- A group is read as its data, after the sentinel that the group before it stands for (rule R84). -/
theorem DecState.reads_wireGroup (hidle : d.codeIndex = 0) (hs : d.cfgS ∉ w) (hl : w.length ≤ maxData d.cfgS) :
    d.Reads (wireGroup d.cfgS w) (d.rebuilt ++ w) (d.afterGroup w.length) :=
  DecState.reads_group (k := 0) hidle hs (dataCount_eq_some_iff.mpr ⟨hl, lengthByte_byte_toNat hl⟩)

/-- A byte above the length byte that it stands in for declares more data than the group has (rule R85). -/
theorem exists_dataCount_of_lengthByte_lt {s last : Byte} {n : Nat} (hs : last ≠ s)
    (hlt : lengthByte s n < last.toNat) : ∃ k, 0 < k ∧ dataCount s last = some (n + k) := by
  have hlegal : legalLength s last = true :=
    (legalLength_iff s last).mpr ⟨by omega, toNat_le_maxCode hs, fun h => hs (byte_eq_iff.mpr h)⟩
  obtain ⟨k', hcount⟩ : ∃ k', dataCount s last = some k' := ⟨_, dataCount_eq s last hlegal⟩
  obtain ⟨-, hlen⟩ := dataCount_eq_some_iff.mp hcount
  have hn : n < k' := by
    by_contra hge
    obtain hlt' | heq := Nat.lt_or_eq_of_le (Nat.le_of_not_lt hge)
    · have := lengthByte_lt_of_lt s hlt'
      omega
    · rw [heq] at hlen
      omega
  exact ⟨k' - n, by omega, by rw [hcount]; congr 1; omega⟩

/-- `wire` reads as the payload `x`, after the sentinel that the group before it stands for; what COBS/R leaves pending
at its end counts as read. -/
def DecState.ReadsAs (d : DecState) (wire x : List Byte) : Prop :=
  ∃ out d', d.Reads wire out d' ∧ d'.CanEnd ∧ out ++ d'.pending = d.rebuilt ++ x

/-- The final group, shrunk or not. -/
theorem DecState.readsAs_wireFinal (hidle : d.codeIndex = 0) (hs : d.cfgS ∉ w) (hl : w.length ≤ maxData d.cfgS) :
    d.ReadsAs (wireFinal d.cfgS d.cfgR w) w := by
  by_cases h : d.cfgR = true ∧ shrinkApplies d.cfgS w = true
  · obtain ⟨hr, h⟩ := h
    obtain ⟨front, last, rfl, hlt⟩ := shrinkApplies_iff.mp h
    obtain ⟨hfront, hlast⟩ : d.cfgS ∉ front ∧ d.cfgS ≠ last := by simpa using hs
    obtain ⟨k, hk, hcount⟩ := exists_dataCount_of_lengthByte_lt (Ne.symm hlast) hlt
    rw [List.length_append, List.length_singleton, Nat.add_assoc] at hcount
    have hle := dataCount_le hcount
    have hne : BitVec.ofNat 8 (1 + k) ≠ 0 := by
      rw [Ne, byte_eq_iff, BitVec.toNat_ofNat, Nat.mod_eq_of_lt (by omega)]
      simp
    rw [hr, wireFinal_shrunk (by simp) hlt, List.dropLast_concat]
    refine ⟨_, _, DecState.reads_group hidle hfront hcount, .inr hr, ?_⟩
    rw [DecState.pending_owed hne, List.append_assoc]
  · rw [wireFinal_unshrunk h]
    refine ⟨_, _, DecState.reads_wireGroup hidle hs hl, .inl rfl, ?_⟩
    rw [DecState.pending_idle rfl, List.append_nil]

/-- A group and what follows it: the sentinel that the group stands for comes between their payloads. -/
theorem DecState.readsAs_wireGroup_append {wire x : List Byte} (hidle : d.codeIndex = 0) (hs : d.cfgS ∉ w)
    (hl : w.length ≤ maxData d.cfgS) (h : (d.afterGroup w.length).ReadsAs wire x) :
    d.ReadsAs (wireGroup d.cfgS w ++ wire) (w ++ (if w.length = maxData d.cfgS then [] else [d.cfgS]) ++ x) := by
  obtain ⟨out, d', hreads, hend, hout⟩ := h
  refine ⟨_, d', (DecState.reads_wireGroup hidle hs hl).append hreads, hend, ?_⟩
  have hfull : BitVec.ofNat 8 (lengthByte d.cfgS w.length) = maxCode d.cfgS ↔ w.length = maxData d.cfgS := by
    obtain ⟨-, -, -, htop⟩ := lengthByte_bounds d.cfgS hl
    rw [byte_eq_iff, lengthByte_byte_toNat hl, htop]
  rw [List.append_assoc, hout]
  simp [DecState.rebuilt, DecState.afterGroup, hfull]

end Reads

/-- The groups of a payload read as the payload: a sentinel is rebuilt after every group that was not full, which is
where the payload has one (rule R84, rule R184). -/
theorem Grouped.readsAs {s : Byte} {x : List Byte} {ds : List (List Byte)} (h : Grouped s x ds) {d : DecState}
    (hcfg : d.cfgS = s) (hidle : d.codeIndex = 0) : d.ReadsAs (wireGroups s d.cfgR ds) x := by
  induction h generalizing d with
  | last hd hl =>
    subst hcfg
    exact DecState.readsAs_wireFinal hidle hd hl
  | @ended w x ds hd hl hx ih =>
    subst hcfg
    have hstep := DecState.readsAs_wireGroup_append hidle hd hl.le
      (ih (d := d.afterGroup w.length) rfl rfl)
    rw [if_neg hl.ne, List.append_assoc, ← wireGroups_cons hx.ne_nil] at hstep
    exact hstep
  | @full w x ds hd hl _ hx ih =>
    subst hcfg
    have hstep := DecState.readsAs_wireGroup_append hidle hd hl.le
      (ih (d := d.afterGroup w.length) rfl rfl)
    rw [if_pos hl, List.append_nil, ← wireGroups_cons hx.ne_nil] at hstep
    exact hstep

/-- From frame start no sentinel comes first, so a frame's groups read as its payload alone (rule R184). -/
theorem exists_reads_frame {d : DecState} (x : List Byte) (hcode : d.code = maxCode d.cfgS) (hidle : d.codeIndex = 0) :
    ∃ out d', d.Reads (wireGroups d.cfgS d.cfgR (frameChunks d.cfgS x)) out d' ∧ d'.CanEnd ∧
      out ++ d'.pending = x := by
  obtain ⟨out, d', hreads, hend, hout⟩ := (grouped_frameChunks d.cfgS x).readsAs rfl hidle
  rw [DecState.rebuilt, if_neg (not_not_intro hcode), List.nil_append] at hout
  exact ⟨out, d', hreads, hend, hout⟩

/-! ### WRITE and FRAME (rule R89, rule R182, rule R189) -/

theorem encWriteFrom_append (x y : List Byte) (count : Nat) (s : State) :
    encWriteFrom count (x ++ y) s =
      andThen (encWriteFrom count x s)
        fun w => if w.resp = some .ok then encWriteFrom w.count y w.st else .next w := by
  induction x generalizing count s with
  | nil => simp [encWriteFrom]
  | cons b x ih =>
    rw [List.cons_append, encWriteFrom, encWriteFrom]
    cases exec (.encByte b) s with
    | next t =>
      by_cases hok : t.encPort.lastResponse = some .ok
      · simp [hok, ih]
      · simp [hok]
    | fault f => rfl
    | refused f => rfl

theorem decWriteFrom_append (x y : List Byte) (count : Nat) (s : State) :
    decWriteFrom count (x ++ y) s =
      andThen (decWriteFrom count x s)
        fun w => if w.resp = some .ok then decWriteFrom w.count y w.st else .next w := by
  induction x generalizing count s with
  | nil => simp [decWriteFrom]
  | cons b x ih =>
    rw [List.cons_append, decWriteFrom, decWriteFrom]
    cases exec (.decByte b) s with
    | next t =>
      by_cases hok : t.decPort.lastResponse = some .ok
      · simp [hok, ih]
      · by_cases heof : t.decPort.lastResponse = some .endOfFrame
        · simp [heof]
        · simp [hok, heof]
    | fault f => rfl
    | refused f => rfl

/-- Settles O55: WRITE goes byte by byte, and stops at the first answer that is not OK. -/
theorem writesAreIncremental : Obligations.WritesAreIncremental :=
  fun x y count s => ⟨encWriteFrom_append x y count s, decWriteFrom_append x y count s⟩

section DecFrame
variable {s : State} {c : Byte} {x : Done DecState} {d d' : DecState} {w out : List Byte}

theorem exec_decByte_afterDec (herr : s.dec.err = 0) (h : s.dec.byte c = .ok x) :
    exec (.decByte c) s = .next (s.afterDec x.st [⟨x.out, x.resp⟩]) :=
  exec_decByte_running herr h

theorem exec_decClose_afterDec (herr : s.dec.err = 0) :
    exec .decClose s = .next (s.afterDec s.dec.close.st [⟨s.dec.close.out, s.dec.close.resp⟩]) :=
  exec_decClose_running herr rfl

/-- WRITE of bytes that DEC accepts goes through all of them. -/
theorem DecState.Reads.decWriteFrom_eq (h : d.Reads w out d') (hd : s.dec = d) (herr : s.dec.err = 0) (count : Nat) :
    ∃ ts, ts.flatMap Transaction.out = out ∧
      decWriteFrom count w s = .next ⟨s.afterDec d' ts, count + w.length, some .ok⟩ := by
  induction h generalizing s count with
  | nil => exact ⟨[], rfl, by simp [decWriteFrom, State.afterDec, ← hd]⟩
  | @cons d d1 d' c w o out hb _ ih =>
    subst hd
    have herr1 : d1.err = 0 := (DecState.byte_ok_err hb).trans herr
    obtain ⟨ts, hts, hrest⟩ := ih (s := s.afterDec d1 [⟨o, .ok⟩]) rfl herr1 (count + 1)
    refine ⟨⟨o, .ok⟩ :: ts, by simp [hts], ?_⟩
    rw [decWriteFrom, exec_decByte_afterDec herr hb, andThen_next, State.afterDec_lastResponse, if_pos rfl, hrest]
    simp [Nat.add_assoc, Nat.add_comm 1]

/-- The frame's bytes, and its end by CLOSE. -/
theorem DecState.Reads.decFrame_close (h : s.dec.Reads w out d) (herr : s.dec.err = 0) :
    ∃ n ts, ts.flatMap Transaction.out = out ++ d.close.out ∧
      decFrame w s = .next ⟨s.afterDec d.close.st ts, n, some d.close.resp⟩ := by
  obtain ⟨ts, hts, hwrite⟩ := h.decWriteFrom_eq rfl herr 0
  have hclose := exec_decClose_afterDec (s := s.afterDec d ts) (h.err_eq.trans herr)
  refine ⟨w.length, ts ++ [⟨d.close.out, d.close.resp⟩], by simp [hts], ?_⟩
  rw [decFrame, decWrite, hwrite]
  simp [hclose]

section Terminator
variable (h : s.dec.Reads w out d) (herr : s.dec.err = 0)
include h herr

/-- A terminator after bytes that DEC accepts ends WRITE, whatever it answers. -/
theorem DecState.Reads.decWrite_terminator :
    ∃ n ts, ts.flatMap Transaction.out = out ++ d.terminatorCase.out ∧
      decWrite (w ++ [s.dec.cfgS]) s =
        .next ⟨s.afterDec d.terminatorCase.st ts, n, some d.terminatorCase.resp⟩ := by
  obtain ⟨ts, hts, hwrite⟩ := h.decWriteFrom_eq rfl herr 0
  have hbyte := exec_decByte_afterDec (s := s.afterDec d ts) (h.err_eq.trans herr) d.byte_sentinel
  refine ⟨w.length + if d.terminatorCase.resp = .endOfFrame then 1 else 0,
    ts ++ [⟨d.terminatorCase.out, d.terminatorCase.resp⟩], by simp [hts], ?_⟩
  rw [decWrite, decWriteFrom_append, hwrite, andThen_next, if_pos rfl, ← h.cfgS_eq, decWriteFrom, hbyte]
  obtain hr | hr := d.terminatorCase_resp <;> simp [hr]

/-- The frame's bytes and a terminator, which ends the frame; the CLOSE after it does nothing. -/
theorem DecState.Reads.decFrame_terminator (hend : d.CanEnd) :
    ∃ n ts, ts.flatMap Transaction.out = out ++ d.pending ∧
      decFrame (w ++ [s.dec.cfgS]) s = .next ⟨s.afterDec d.initFrame ts, n, some .ok⟩ := by
  obtain ⟨n, ts, hts, hwrite⟩ := h.decWrite_terminator herr
  rw [DecState.terminatorCase_canEnd hend] at hts hwrite
  have hclose := exec_decClose_afterDec (s := s.afterDec d.initFrame ts) (h.err_eq.trans herr)
  rw [State.afterDec_dec, DecState.close_idle d.initFrame_codeIndex] at hclose
  refine ⟨n, ts ++ [⟨[], .ok⟩], by simp [hts], ?_⟩
  rw [decFrame, hwrite, andThen_next, if_pos rfl, hclose, andThen_next, State.afterDec_afterDec]
  rfl

/-- The frame's bytes and a terminator that comes too early. -/
theorem DecState.Reads.decFrame_unfinished (hr : d.cfgR = false) (hk : d.codeIndex ≠ 0) :
    ∃ n ts, ts.flatMap Transaction.out = out ∧
      decFrame (w ++ [s.dec.cfgS]) s =
        .next ⟨s.afterDec { d with err := Response.errUnexpectedEof.code } ts, n, some .errUnexpectedEof⟩ := by
  obtain ⟨n, ts, hts, hwrite⟩ := h.decWrite_terminator herr
  rw [DecState.terminatorCase_short hr hk, DecState.raise_running (h.err_eq.trans herr)] at hts hwrite
  refine ⟨n, ts, hts.trans (List.append_nil out), ?_⟩
  rw [decFrame, hwrite, andThen_next, if_neg (by simp), if_neg (by simp)]

end Terminator

end DecFrame

/-- The unit that `DEC.CONFIG s, r` leaves (rule R163). -/
def DecState.configured (s : Byte) (r : Bool) : DecState := ⟨s, r, maxCode s, 0, 0⟩

theorem DecState.configured_cfgS (s : Byte) (r : Bool) : (DecState.configured s r).cfgS = s := rfl

theorem exec_decConfig_afterDec (st : State) (s : Byte) (r : Bool) :
    exec (.decConfig s r) st = .next (st.afterDec (DecState.configured s r) [⟨[], .ok⟩]) := rfl

section DecodeFrame
variable {w : List Byte} {s : Byte} {r : Bool} {st : State} {d : DecState}

/-- CONFIG emits nothing, so the whole run is what FRAME does from frame start. -/
theorem decodeFrame_of_decFrame {y : List Byte} {resp : Response}
    (h : ∀ u : State, u.dec = DecState.configured s r →
      ∃ n ts, ts.flatMap Transaction.out = y ∧ decFrame w u = .next ⟨u.afterDec d ts, n, some resp⟩) :
    ∃ t, decodeFrame w s r st = .next ⟨t, y, some resp⟩ ∧ t.dec = d := by
  obtain ⟨n, ts, hts, hframe⟩ := h (st.afterDec (DecState.configured s r) [⟨[], .ok⟩]) rfl
  refine ⟨st.afterDec d (⟨[], .ok⟩ :: ts), ?_, rfl⟩
  rw [decodeFrame, exec_decConfig_afterDec, andThen_next, hframe, andThen_next, State.afterDec_afterDec,
    State.afterDec_emitted, List.singleton_append, List.flatMap_cons, List.nil_append, hts]

section Ends
variable {out : List Byte} (h : (DecState.configured s r).Reads w out d)
include h

theorem DecState.Reads.decodeFrame_close :
    ∃ t, decodeFrame w s r st = .next ⟨t, out ++ d.close.out, some d.close.resp⟩ ∧ t.dec = d.close.st :=
  decodeFrame_of_decFrame fun _ hu => DecState.Reads.decFrame_close (hu ▸ h) (hu ▸ rfl)

theorem DecState.Reads.decodeFrame_terminator (hend : d.CanEnd) :
    ∃ t, decodeFrame (w ++ [s]) s r st = .next ⟨t, out ++ d.pending, some .ok⟩ ∧ t.dec = d.initFrame :=
  decodeFrame_of_decFrame fun u hu => by
    have hframe := DecState.Reads.decFrame_terminator (hu ▸ h) (hu ▸ rfl) hend
    rwa [hu, DecState.configured_cfgS] at hframe

theorem DecState.Reads.decodeFrame_unfinished (hr : d.cfgR = false) (hk : d.codeIndex ≠ 0) :
    ∃ t, decodeFrame (w ++ [s]) s r st = .next ⟨t, out, some .errUnexpectedEof⟩ ∧
      t.dec = { d with err := Response.errUnexpectedEof.code } :=
  decodeFrame_of_decFrame fun u hu => by
    have hframe := DecState.Reads.decFrame_unfinished (hu ▸ h) (hu ▸ rfl) hr hk
    rwa [hu, DecState.configured_cfgS] at hframe

end Ends

/-- What ENC emits for a frame decodes to its payload, with the terminator or without it (rule R184). -/
theorem decodeFrame_closedFrame (x : List Byte) (s : Byte) (r a : Bool) (st : State) :
    ∃ t, decodeFrame (closedFrame x s r a) s r st = .next ⟨t, x, some .ok⟩ := by
  obtain ⟨out, d, hreads, hend, rfl⟩ := exists_reads_frame (d := DecState.configured s r) x rfl rfl
  rw [closedFrame_eq]
  cases a with
  | false =>
    obtain ⟨t, ht, -⟩ := hreads.decodeFrame_close (st := st)
    rw [DecState.close_canEnd hend] at ht
    exact ⟨t, (List.append_nil (wireGroups ..)).symm ▸ ht⟩
  | true =>
    obtain ⟨t, ht, -⟩ := hreads.decodeFrame_terminator (st := st) hend
    exact ⟨t, ht⟩

end DecodeFrame

/-- Settles O50: ENC emits the closed form, which decodes to the payload. -/
theorem roundTrip : Obligations.RoundTrip := by
  intro x s r a st st'
  obtain ⟨t, ht⟩ := encodeFrame_bytes x s r a st
  exact ⟨t, _, ht, decodeFrame_closedFrame x s r a st'⟩

/-! ### Malformed input and a mismatch (rule R190, rule R191) -/

/-- With sentinel 0x00, 0x02 declares one data byte. -/
theorem reads_lengthByte_two (r : Bool) : (DecState.configured 0x00 r).Reads [0x02] [] ⟨0x00, r, 0x02, 1, 0⟩ :=
  DecState.reads_group (w := []) (k := 1) rfl List.not_mem_nil (show dataCount 0x00 0x02 = some 1 by decide)

/-- Settles O58: one byte is still owed when the frame ends; COBS/R reads the length byte as that byte. -/
theorem malformedInput : Obligations.MalformedInput := by
  intro st
  have hplain := reads_lengthByte_two false
  have hreduced := reads_lengthByte_two true
  refine ⟨?_, ?_, ?_, ?_⟩
  · obtain ⟨t, ht, hdec⟩ := hplain.decodeFrame_close (st := st)
    rw [DecState.close_short rfl (by decide)] at ht hdec
    exact ⟨t, ht, by rw [hdec]; rfl⟩
  · obtain ⟨t, ht, hdec⟩ := hplain.decodeFrame_unfinished (st := st) rfl (by decide)
    exact ⟨t, ht, by rw [hdec]; rfl⟩
  · obtain ⟨t, ht, -⟩ := hreduced.decodeFrame_close (st := st)
    rw [DecState.close_reduced rfl (by decide)] at ht
    exact ⟨t, ht⟩
  · obtain ⟨t, ht, -⟩ := hreduced.decodeFrame_terminator (st := st) (.inr rfl)
    exact ⟨t, ht⟩

/-- Settles O59: the reduced final group is the last byte and then the rest; read plain, its first byte declares 254. -/
theorem mismatchExample : Obligations.MismatchExample := ⟨⟨_, rfl⟩, ⟨_, rfl⟩⟩

/-! ### The two units chained (rule R183) -/

section AndThen
variable {α β γ : Type}

theorem andThen_assoc (o : Host.Outcome α Fault Refusal) (f : α → Host.Outcome β Fault Refusal)
    (g : β → Host.Outcome γ Fault Refusal) : andThen (andThen o f) g = andThen o fun a => andThen (f a) g := by
  cases o <;> rfl

/-- What comes after is asked only of a state that the first part leaves. -/
theorem andThen_congr {o : Host.Outcome α Fault Refusal} {f g : α → Host.Outcome β Fault Refusal}
    (h : ∀ a, o = .next a → f a = g a) : andThen o f = andThen o g := by
  cases o with
  | next a => exact h a rfl
  | fault _ => rfl
  | refused _ => rfl

theorem andThen_eq_next {o : Host.Outcome α Fault Refusal} {f : α → Host.Outcome β Fault Refusal} {b : β}
    (h : andThen o f = .next b) : ∃ a, o = .next a ∧ f a = .next b := by
  cases o with
  | next a => exact ⟨a, rfl, h⟩
  | fault _ => cases h
  | refused _ => cases h

end AndThen

theorem dispatchWord_encode (i : Instr) (s : State) : dispatchWord i.unit (encode i) s = exec i s := by
  rw [dispatchWord, decode_encode]

section Chained
variable {i : Instr} {is : List Instr} {s t u : State}

/-- Commands of the two units commute (rule R60). -/
theorem exec_commute {j : Instr} (hi : i.unit = .enc) (hj : j.unit = .dec) (s : State) :
    andThen (exec i s) (exec j) = andThen (exec j s) (exec i) := by
  have h := unitsCommute (encode i) (encode j) s
  rw [← hi, ← hj] at h
  have hfun (k : Instr) : dispatchWord k.unit (encode k) = exec k := funext (dispatchWord_encode k)
  rwa [hfun, hfun] at h

theorem exec_feedDec_commute (hi : i.unit = .enc) (w : List Byte) (s : State) :
    andThen (exec i s) (feedDec w) = andThen (feedDec w s) (exec i) := by
  induction w generalizing s with
  | nil => cases h : exec i s <;> simp [feedDec, andThen, h]
  | cons b w ih =>
    calc andThen (exec i s) (feedDec (b :: w))
        = andThen (andThen (exec i s) (exec (.decByte b))) (feedDec w) := (andThen_assoc ..).symm
      _ = andThen (exec (.decByte b) s) fun t => andThen (exec i t) (feedDec w) := by
          rw [exec_commute hi rfl, andThen_assoc]
      _ = andThen (exec (.decByte b) s) fun t => andThen (feedDec w t) (exec i) := by simp only [ih]
      _ = andThen (feedDec (b :: w) s) (exec i) := by rw [feedDec, andThen_assoc]

theorem issueAll_feedDec_commute (his : ∀ i ∈ is, i.unit = .enc) (w : List Byte) (s : State) :
    andThen (issueAll is s) (feedDec w) = andThen (feedDec w s) (issueAll is) := by
  induction is generalizing s with
  | nil => cases h : feedDec w s <;> simp [issueAll, andThen, h]
  | cons i is ih =>
    obtain ⟨hi, his⟩ := List.forall_mem_cons.mp his
    calc andThen (issueAll (i :: is) s) (feedDec w)
        = andThen (exec i s) fun t => andThen (issueAll is t) (feedDec w) := by rw [issueAll, andThen_assoc]
      _ = andThen (andThen (exec i s) (feedDec w)) (issueAll is) := by simp only [ih his, andThen_assoc]
      _ = andThen (feedDec w s) fun t => andThen (exec i t) (issueAll is) := by
          rw [exec_feedDec_commute hi, andThen_assoc]

theorem feedDec_append (w w' : List Byte) (s : State) :
    feedDec (w ++ w') s = andThen (feedDec w s) (feedDec w') := by
  induction w generalizing s with
  | nil => rfl
  | cons b w ih =>
    rw [List.cons_append, feedDec, feedDec, andThen_assoc]
    exact andThen_congr fun t _ => ih t

theorem feedDec_keeps_encPort {w : List Byte} (h : feedDec w s = .next t) : t.encPort = s.encPort := by
  induction w generalizing s with
  | nil =>
    cases h
    rfl
  | cons b w ih =>
    obtain ⟨u, hu, ht⟩ := andThen_eq_next h
    obtain ⟨d, out, r, rfl⟩ := exec_dec_next rfl hu
    have hport := ih ht
    exact hport

/-- ENC's port log only grows. -/
theorem issueAll_encLog (his : ∀ i ∈ is, i.unit = .enc) (h : issueAll is s = .next t) :
    ∃ ts, t.encPort.log = s.encPort.log ++ ts := by
  induction is generalizing s with
  | nil =>
    cases h
    exact ⟨[], (List.append_nil _).symm⟩
  | cons i is ih =>
    obtain ⟨hi, his⟩ := List.forall_mem_cons.mp his
    obtain ⟨u, hu, ht⟩ := andThen_eq_next h
    obtain ⟨e, out, r, rfl⟩ := exec_enc_next hi hu
    obtain ⟨ts, hts⟩ := ih his ht
    exact ⟨⟨out, r⟩ :: ts, hts.trans (List.append_assoc ..)⟩

/-- DEC is fed with what ENC has emitted since its port was `p`. -/
def feedEmitted (p : PortState) (s : State) : Host.Outcome State Fault Refusal :=
  feedDec (p.emittedSince s.encPort) s

theorem loopEncFirst_eq (is : List Instr) (s : State) :
    loopEncFirst is s = andThen (issueAll is s) (feedEmitted s.encPort) := rfl

/-- What ENC emits over its first command and the others is what that command emits, then what the others do. -/
theorem feedEmitted_first (hi : i.unit = .enc) (his : ∀ i ∈ is, i.unit = .enc) (hs : exec i s = .next t)
    (ht : issueAll is t = .next u) :
    feedEmitted s.encPort u = andThen (feedDec t.encPort.lastOutput u) (feedEmitted t.encPort) := by
  obtain ⟨ts, hts⟩ := issueAll_encLog his ht
  obtain ⟨e, out, r, rfl⟩ := exec_enc_next hi hs
  have hall : u.encPort.log = s.encPort.log ++ ⟨out, r⟩ :: ts := hts.trans (List.append_assoc ..)
  rw [feedEmitted, PortState.emittedSince_of_log hall, List.flatMap_cons, feedDec_append,
    PortState.record_lastOutput]
  refine andThen_congr fun v hv => ?_
  rw [feedEmitted, feedDec_keeps_encPort hv, PortState.emittedSince_of_log hts]

end Chained

/-- Settles O56: what the first ENC command emits may be fed to DEC before the other ENC commands or after them. -/
theorem lockStepEqualsEncFirst : Obligations.LockStepEqualsEncFirst := by
  intro is
  induction is with
  | nil =>
    intro s _
    rw [loopEncFirst_eq, issueAll, andThen_next, feedEmitted, PortState.emittedSince_of_log (List.append_nil _).symm]
    rfl
  | cons i is ih =>
    intro s his
    obtain ⟨hi, his⟩ := List.forall_mem_cons.mp his
    rw [loopLockStep, loopEncFirst_eq, issueAll, andThen_assoc]
    refine andThen_congr fun t ht => ?_
    calc andThen (feedDec t.encPort.lastOutput t) (loopLockStep is)
        = andThen (feedDec t.encPort.lastOutput t) fun u => andThen (issueAll is u) (feedEmitted t.encPort) :=
          andThen_congr fun u hu => by rw [ih u his, loopEncFirst_eq, feedDec_keeps_encPort hu]
      _ = andThen (issueAll is t) fun u => andThen (feedDec t.encPort.lastOutput u) (feedEmitted t.encPort) := by
          rw [← andThen_assoc, ← issueAll_feedDec_commute his, andThen_assoc]
      _ = andThen (issueAll is t) (feedEmitted s.encPort) :=
          andThen_congr fun u hu => (feedEmitted_first hi his ht hu).symm

section Loopback
variable {s : State}

theorem issueAll_encFrameCommands (h : s.enc.Inv) (herr : s.enc.err = 0) (x : List Byte) :
    issueAll (encFrameCommands x) s = .next (s.afterEnc s.enc.emptied (s.enc.frameLog x)) := by
  induction x generalizing s with
  | nil => exact congrArg (andThen · _) (exec_encClose_afterEnc h herr)
  | cons c x ih =>
    have hnext := ih (s := s.afterEnc (s.enc.afterByte c) [⟨s.enc.byteOut c, .ok⟩]) (EncState.inv_afterByte_inv h c)
      (by simpa using herr)
    change andThen (exec (.encByte c) s) (issueAll (encFrameCommands x)) = _
    rw [exec_encByte_afterEnc h herr, andThen_next, hnext]
    simp [EncState.frameLog, EncState.afterByte_emptied]

theorem encFrameCommands_unit (x : List Byte) : ∀ i ∈ encFrameCommands x, i.unit = .enc := by
  intro i hi
  obtain hi | hi := List.mem_append.mp hi
  · obtain ⟨c, -, rfl⟩ := List.mem_map.mp hi
    rfl
  · rw [List.mem_singleton.mp hi]
    rfl

theorem DecState.Reads.feedDec_eq {d d' : DecState} {w out : List Byte} (h : d.Reads w out d') (hd : s.dec = d)
    (herr : s.dec.err = 0) :
    ∃ ts, ts.flatMap Transaction.out = out ∧ feedDec w s = .next (s.afterDec d' ts) := by
  induction h generalizing s with
  | nil => exact ⟨[], rfl, by simp [feedDec, State.afterDec, ← hd]⟩
  | @cons d d1 d' c w o out hb _ ih =>
    subst hd
    obtain ⟨ts, hts, hrest⟩ := ih (s := s.afterDec d1 [⟨o, .ok⟩]) rfl ((DecState.byte_ok_err hb).trans herr)
    refine ⟨⟨o, .ok⟩ :: ts, by simp [hts], ?_⟩
    rw [feedDec, exec_decByte_afterDec herr hb, andThen_next, hrest, State.afterDec_afterDec]
    rfl

/-- A frame and its terminator, fed to DEC at frame start, leave it at frame start. -/
theorem feedDec_closedFrame (hcode : s.dec.code = maxCode s.dec.cfgS) (hidle : s.dec.codeIndex = 0)
    (herr : s.dec.err = 0) (x : List Byte) :
    ∃ t, feedDec (closedFrame x s.dec.cfgS s.dec.cfgR true) s = .next t ∧ t.enc = s.enc ∧ t.dec = s.dec ∧
      s.decPort.emittedSince t.decPort = x ∧ t.decPort.lastResponse = some .endOfFrame := by
  obtain ⟨out, d, hreads, hend, rfl⟩ := exists_reads_frame x hcode hidle
  obtain ⟨ts, hts, hfeed⟩ := hreads.feedDec_eq rfl herr
  have hbyte := exec_decByte_afterDec (s := s.afterDec d ts) (hreads.err_eq.trans herr) d.byte_sentinel
  rw [DecState.terminatorCase_canEnd hend, hreads.cfgS_eq, hreads.initFrame_eq, State.afterDec_afterDec] at hbyte
  have hstart : s.dec.initFrame = s.dec := by rw [DecState.initFrame_idle hidle, ← hcode]
  refine ⟨s.afterDec s.dec.initFrame (ts ++ [⟨d.pending, .endOfFrame⟩]), ?_, rfl, hstart, ?_, ?_⟩
  · rw [closedFrame_eq, feedDec_append, hfeed]
    exact congrArg (andThen · _) hbyte
  · simp [hts]
  · simp

end Loopback

theorem EncState.inv_emptied_eq {e : EncState} (h : e.Inv) (hn : e.n = 0) : e.emptied = e := by
  obtain ⟨hcode, -, -, hbuf, -⟩ := h
  rw [hn] at hcode hbuf
  have hc : e.code = freshCode e.cfgS := byte_eq_iff.mpr (hcode.trans (freshCode_toNat e.cfgS).symm)
  have hb : e.buf = [] := List.map_eq_nil_iff.mp hbuf
  rw [EncState.emptied, ← hn, ← hc, ← hb]

/-- Settles O57: ENC to the end first emits the closed form, which DEC reads back. -/
theorem loopbackDeliversFrame : Obligations.LoopbackDeliversFrame := by
  intro x s h hn herr ha hs hr hderr hcode hidle
  have hstart := EncState.inv_emptied_eq h hn
  have hdata : s.enc.data = [] := hstart ▸ s.enc.emptied_data
  have hout := EncState.inv_frameLog_out h x
  rw [hdata, List.nil_append, ha, ← hs, ← hr] at hout
  obtain ⟨t, hfeed, henc, hdec, hemit, hlast⟩ :=
    feedDec_closedFrame (s := s.afterEnc s.enc.emptied (s.enc.frameLog x)) hcode hidle hderr x
  refine ⟨t, ?_, henc.trans hstart, hdec, hemit, hlast⟩
  rw [lockStepEqualsEncFirst _ s (encFrameCommands_unit x), loopEncFirst_eq, issueAll_encFrameCommands h herr,
    andThen_next, feedEmitted, State.afterEnc_emitted, hout]
  exact hfeed

end Sys2Proof.Machine

/-! PROOFS. The statements on errors and the halted state (60_exceptions): what a dispatched word answers on each unit,
when that is an error and what is then left, and that a sticky error is in the unit's response stream. -/

namespace Sys2Proof.Machine

/-! ### Illegal words, the halted state and the idle step -/

/-- Settles O18: legality comes first in the dispatch, and raising does not ask whether the unit is halted. -/
theorem illegalWordRaises : Obligations.IllegalWordRaises :=
  fun _ _ => ⟨dispatchWord_illegal, dispatchWord_illegal⟩

/-- Settles O19: BYTE and CLOSE look at `err` first; CONFIG and CLEAR do not, and leave it 0. -/
theorem haltedUnitRefusesData : Obligations.HaltedUnitRefusesData := by
  intro s c r a
  refine ⟨fun herr => ?_, fun herr => ?_, fun herr => ?_, fun herr => ?_⟩
  · exact ⟨s.enc.halted_iff.mpr herr, exec_enc_halted (.inr ⟨c, rfl⟩) herr, exec_enc_halted (.inl rfl) herr,
      ⟨_, exec_encConfig s c r a, rfl⟩, ⟨_, exec_encClear s, rfl⟩⟩
  · exact ⟨s.dec.halted_iff.mpr herr, exec_dec_halted (.inr ⟨c, rfl⟩) herr, exec_dec_halted (.inl rfl) herr,
      ⟨_, exec_decConfig s c r, rfl⟩, ⟨_, exec_decClear s, rfl⟩⟩
  · exact Bool.eq_false_iff.mpr fun hh => s.enc.halted_iff.mp hh herr
  · exact Bool.eq_false_iff.mpr fun hh => s.dec.halted_iff.mp hh herr

/-- Settles O10: with the invariants met and no move to perform, a step is the idle one. -/
theorem idleStepHoldsState : Obligations.IdleStepHoldsState := fun _ => step_of_idle

/-! ### What a word answers on ENC -/

theorem dispatchWord_of_decode {u : UnitId} {w : CmdWord} {i : Instr} (h : decode u w = .ok i) (s : State) :
    dispatchWord u w s = exec i s := by
  rw [dispatchWord, h]

/-- The ends a word `w` can have on ENC from `e`: an illegal word is raised, and nothing else is (rule R202, rule
R203). -/
inductive EncAnswer (w : CmdWord) (e : EncState) : Done EncState → Prop where
  | raised : Legal .enc w = false → EncAnswer w e (e.raise .errIllegalCmd)
  | unraised {x : Done EncState} : x.resp.isError = false → x.st.err = e.err ∨ x.st.err = 0 → EncAnswer w e x

section EncAnswers
variable {e : EncState} {x : Done EncState} {w : CmdWord} {s t : State}

theorem EncState.byte_resp {c : Byte} (h : e.byte c = .ok x) : x.resp = .ok := by
  obtain ⟨⟨e1, out1⟩, -, h⟩ := except_bind_ok h
  dsimp only at h
  split at h
  case isTrue =>
    obtain ⟨_, -, h⟩ := except_bind_ok h
    cases h
    rfl
  case isFalse =>
    obtain ⟨_, -, h⟩ := except_bind_ok h
    cases h
    rfl

theorem EncState.close_resp (h : e.close = .ok x) : x.resp = .ok := by
  obtain ⟨_, -, h⟩ := except_bind_ok h
  obtain ⟨_, -, h⟩ := except_bind_ok h
  cases h
  rfl

/-- `ERR_HALTED` is not one of the errors that `raise` records (rule R209). -/
theorem EncState.unlessHalted_resp {r : Except Fault (Done EncState)} (hr : ∀ y, r = .ok y → y.resp = .ok)
    (h : e.unlessHalted r = .ok x) : x.resp.isError = false := by
  by_cases herr : e.err = 0
  · rw [EncState.unlessHalted_running herr] at h
    rw [hr x h]
    rfl
  · rw [EncState.unlessHalted_halted herr] at h
    cases h
    rfl

/-- No ENC command raises an error: BYTE and CLOSE keep `err`, CONFIG and CLEAR set it to 0 (rule R202). -/
theorem exec_enc_unraised {i : Instr} (hu : i.unit = .enc) (h : exec i s = .next t) :
    ∃ x : Done EncState, x.resp.isError = false ∧ (x.st.err = s.enc.err ∨ x.st.err = 0) ∧
      t = { s with enc := x.st, encPort := s.encPort.record x.out x.resp } := by
  cases i with
  | encByte c =>
    have herr := exec_enc_keeps_err (.inr ⟨c, rfl⟩) h
    obtain ⟨x, hx, rfl⟩ := finishEnc_next h
    exact ⟨x, EncState.unlessHalted_resp (fun _ => EncState.byte_resp) hx, .inl herr, rfl⟩
  | encClose =>
    have herr := exec_enc_keeps_err (.inl rfl) h
    obtain ⟨x, hx, rfl⟩ := finishEnc_next h
    exact ⟨x, EncState.unlessHalted_resp (fun _ => EncState.close_resp) hx, .inl herr, rfl⟩
  | encConfig c r a =>
    rw [exec_encConfig] at h
    cases h
    exact ⟨⟨_, [], .ok⟩, rfl, .inr rfl, rfl⟩
  | encClear =>
    rw [exec_encClear] at h
    cases h
    exact ⟨⟨_, [], .ok⟩, rfl, .inr rfl, rfl⟩
  | decByte _ => cases hu
  | decClose => cases hu
  | decConfig _ _ => cases hu
  | decClear => cases hu

theorem dispatchWord_encAnswer (h : dispatchWord .enc w s = .next t) :
    ∃ x, EncAnswer w s.enc x ∧ t = { s with enc := x.st, encPort := s.encPort.record x.out x.resp } := by
  cases hl : Legal .enc w with
  | false =>
    rw [dispatchWord_illegal hl] at h
    cases h
    exact ⟨_, .raised hl, rfl⟩
  | true =>
    obtain ⟨i, hd⟩ := (legal_iff_decodes .enc w).mp hl
    rw [dispatchWord_of_decode hd] at h
    obtain ⟨x, hn, herr, rfl⟩ := exec_enc_unraised (decode_unit hd) h
    exact ⟨x, .unraised hn herr, rfl⟩

/-- An error is the response exactly when it is `ERR_ILLEGAL_CMD` and the word illegal (rule R202). -/
theorem dispatchWord_enc_lastResponse_iff {r : Response} (h : dispatchWord .enc w s = .next t) (he : r.isError = true) :
    t.encPort.lastResponse = some r ↔ r = .errIllegalCmd ∧ Legal .enc w = false := by
  constructor
  · obtain ⟨x, hx, rfl⟩ := dispatchWord_encAnswer h
    rw [PortState.record_lastResponse, Option.some.injEq]
    rintro rfl
    cases hx with
    | raised hl => exact ⟨rfl, hl⟩
    | unraised hn _ => exact absurd (hn.symm.trans he) Bool.false_ne_true
  · rintro ⟨rfl, hl⟩
    rw [dispatchWord_illegal hl] at h
    cases h
    exact PortState.record_lastResponse ..

end EncAnswers

/-! ### What a word answers on DEC -/

/-- When a word `w` raises `r` on DEC in state `d` (rule R202). -/
def DecState.RaiseCause (d : DecState) (w : CmdWord) : Response → Prop
  | .errIllegalCmd => Legal .dec w = false
  | .errUnexpectedEof => d.err = 0 ∧ decode .dec w = .ok (.decByte d.cfgS) ∧ d.cfgR = false ∧ d.codeIndex ≠ 0
  | .errIncompleteFrame => d.err = 0 ∧ decode .dec w = .ok .decClose ∧ d.cfgR = false ∧ d.codeIndex ≠ 0
  | .errBadLength => d.err = 0 ∧ decode .dec w = .ok (.decByte 0x00) ∧ d.cfgS ≠ 0x00 ∧ d.codeIndex = 0
  | .ok => False
  | .endOfFrame => False
  | .errHalted => False

/-- The ends a word `w` can have on DEC from `d`: an error is raised for its cause, or none is (rule R202, rule
R203). -/
inductive DecAnswer (w : CmdWord) (d : DecState) : Done DecState → Prop where
  | raised {r : Response} : r.isError = true → d.RaiseCause w r → DecAnswer w d (d.raise r)
  | unraised {x : Done DecState} : x.resp.isError = false → x.st.err = d.err ∨ x.st.err = 0 → DecAnswer w d x

section DecAnswers
variable {d : DecState} {x : Done DecState} {w : CmdWord} {s t : State} {c : Byte}

theorem DecState.terminatorCase_answer (herr : d.err = 0) (hw : decode .dec w = .ok (.decByte d.cfgS)) :
    DecAnswer w d d.terminatorCase := by
  rw [d.terminatorCase_eq]
  split_ifs with hk hr
  · exact .unraised rfl (.inl rfl)
  · exact .unraised rfl (.inl rfl)
  · exact .raised rfl ⟨herr, hw, Bool.eq_false_iff.mpr hr, hk⟩

theorem DecState.byte_answer (herr : d.err = 0) (hw : decode .dec w = .ok (.decByte c)) (h : d.byte c = .ok x) :
    DecAnswer w d x := by
  obtain ⟨hc, hb⟩ | ⟨-, -, hb⟩ | ⟨-, hk, hs, hc, hb⟩ | ⟨-, -, -, k, -, hb⟩ := d.byte_cases c
  all_goals rw [hb] at h; cases h
  · exact DecState.terminatorCase_answer herr (hc ▸ hw)
  · exact .unraised rfl (.inl rfl)
  · exact .raised rfl ⟨herr, hc ▸ hw, hs, hk⟩
  · exact .unraised rfl (.inl rfl)

theorem DecState.close_answer (herr : d.err = 0) (hw : decode .dec w = .ok .decClose) : DecAnswer w d d.close := by
  rw [d.close_eq]
  split_ifs with hk hr
  · exact .unraised rfl (.inl rfl)
  · exact .unraised rfl (.inl rfl)
  · exact .raised rfl ⟨herr, hw, Bool.eq_false_iff.mpr hr, hk⟩

/-- `ERR_HALTED` is not one of the errors that `raise` records (rule R209). -/
theorem DecState.unlessHalted_answer {r : Except Fault (Done DecState)}
    (hr : d.err = 0 → ∀ y, r = .ok y → DecAnswer w d y) (h : d.unlessHalted r = .ok x) : DecAnswer w d x := by
  by_cases herr : d.err = 0
  · rw [DecState.unlessHalted_running herr] at h
    exact hr herr x h
  · rw [DecState.unlessHalted_halted herr] at h
    cases h
    exact .unraised rfl (.inl rfl)

theorem exec_decAnswer {i : Instr} (hw : decode .dec w = .ok i) (h : exec i s = .next t) :
    ∃ x, DecAnswer w s.dec x ∧ t = { s with dec := x.st, decPort := s.decPort.record x.out x.resp } := by
  have hu : i.unit = .dec := decode_unit hw
  cases i with
  | encByte _ => cases hu
  | encClose => cases hu
  | encConfig _ _ _ => cases hu
  | encClear => cases hu
  | decByte c =>
    obtain ⟨x, hx, rfl⟩ := finishDec_next h
    exact ⟨x, DecState.unlessHalted_answer (fun herr _ => DecState.byte_answer herr hw) hx, rfl⟩
  | decClose =>
    obtain ⟨x, hx, rfl⟩ := finishDec_next h
    refine ⟨x, DecState.unlessHalted_answer (fun herr y hy => ?_) hx, rfl⟩
    cases hy
    exact DecState.close_answer herr hw
  | decConfig c r =>
    rw [exec_decConfig] at h
    cases h
    exact ⟨s.dec.config c r, .unraised rfl (.inr rfl), rfl⟩
  | decClear =>
    rw [exec_decClear] at h
    cases h
    exact ⟨s.dec.clear, .unraised rfl (.inr rfl), rfl⟩

theorem dispatchWord_decAnswer (h : dispatchWord .dec w s = .next t) :
    ∃ x, DecAnswer w s.dec x ∧ t = { s with dec := x.st, decPort := s.decPort.record x.out x.resp } := by
  cases hl : Legal .dec w with
  | false =>
    rw [dispatchWord_illegal hl] at h
    cases h
    exact ⟨_, .raised (r := .errIllegalCmd) rfl hl, rfl⟩
  | true =>
    obtain ⟨i, hd⟩ := (legal_iff_decodes .dec w).mp hl
    rw [dispatchWord_of_decode hd] at h
    exact exec_decAnswer hd h

/-- A word that has a cause to raise `r` does raise it (rule R202). -/
theorem dispatchWord_of_raiseCause {r : Response} (h : s.dec.RaiseCause w r) :
    dispatchWord .dec w s = finishDec s (.ok (s.dec.raise r)) := by
  cases r with
  | ok => exact h.elim
  | endOfFrame => exact h.elim
  | errUnexpectedEof =>
    obtain ⟨herr, hw, hr, hk⟩ := h
    exact (dispatchWord_of_decode hw s).trans (exec_decByte_running herr
      (s.dec.byte_sentinel.trans (congrArg Except.ok (DecState.terminatorCase_short hr hk))))
  | errIncompleteFrame =>
    obtain ⟨herr, hw, hr, hk⟩ := h
    exact (dispatchWord_of_decode hw s).trans (exec_decClose_running herr (DecState.close_short hr hk))
  | errBadLength =>
    obtain ⟨herr, hw, hs, hk⟩ := h
    exact (dispatchWord_of_decode hw s).trans (exec_decByte_running herr
      ((DecState.byte_lengthCase hs.symm hk).trans (DecState.lengthCase_bad ⟨hs, rfl⟩)))
  | errIllegalCmd => exact dispatchWord_illegal h
  | errHalted => exact h.elim

/-- An error is the response exactly when the word has a cause to raise it (rule R202). -/
theorem dispatchWord_dec_lastResponse_iff {r : Response} (h : dispatchWord .dec w s = .next t) (he : r.isError = true) :
    t.decPort.lastResponse = some r ↔ s.dec.RaiseCause w r := by
  constructor
  · obtain ⟨x, hx, rfl⟩ := dispatchWord_decAnswer h
    rw [PortState.record_lastResponse, Option.some.injEq]
    rintro rfl
    cases hx with
    | raised _ hc => exact hc
    | unraised hn _ => exact absurd (hn.symm.trans he) Bool.false_ne_true
  · intro hc
    rw [dispatchWord_of_raiseCause hc] at h
    cases h
    exact PortState.record_lastResponse ..

end DecAnswers

/-- Settles O20: an end is `raise` itself, which writes `err` alone, or answers no error and keeps or clears `err`. -/
theorem raisingIsPrecise : Obligations.RaisingIsPrecise := by
  refine fun w s t => ⟨fun h => ?_, fun h => ?_⟩
  · obtain ⟨x, hx, rfl⟩ := dispatchWord_encAnswer h
    refine ⟨x.out, x.resp, PortState.record_log .., ?_⟩
    cases hx with
    | raised _ => exact ⟨fun _ => ⟨rfl, rfl⟩, fun hn => absurd hn.symm Bool.false_ne_true⟩
    | unraised hn herr => exact ⟨fun he => absurd (hn.symm.trans he) Bool.false_ne_true, fun _ => herr⟩
  · obtain ⟨x, hx, rfl⟩ := dispatchWord_decAnswer h
    refine ⟨x.out, x.resp, PortState.record_log .., ?_⟩
    cases hx with
    | raised he _ => exact ⟨fun _ => ⟨rfl, rfl⟩, fun hn => absurd (hn.symm.trans he) Bool.false_ne_true⟩
    | unraised hn herr => exact ⟨fun he => absurd (hn.symm.trans he) Bool.false_ne_true, fun _ => herr⟩

/-- Settles O21: on ENC only an illegal word is raised; on DEC an error is the response exactly for its cause. -/
theorem errorCauses : Obligations.ErrorCauses := by
  refine fun w s t => ⟨fun h => ⟨?_, fun r hr he => ?_⟩, fun h => ?_⟩
  · exact (dispatchWord_enc_lastResponse_iff h rfl).trans (and_iff_right rfl)
  · exact ((dispatchWord_enc_lastResponse_iff h he).mp hr).1
  · exact ⟨dispatchWord_dec_lastResponse_iff h rfl, dispatchWord_dec_lastResponse_iff h rfl,
      dispatchWord_dec_lastResponse_iff h rfl, dispatchWord_dec_lastResponse_iff h rfl⟩

/-! ### A sticky error is in the response stream (rule R203, rule R246) -/

/-- The error `err` holds, if any, is among the responses of the port. -/
def PortState.Reports (p : PortState) (err : BitVec 3) : Prop :=
  err ≠ 0 → ∃ r ∈ p.responses, r.isError = true ∧ r.code = err

theorem State.errReported_iff (s : State) :
    s.ErrReported ↔ s.encPort.Reports s.enc.err ∧ s.decPort.Reports s.dec.err := Iff.rfl

theorem State.setInFlight_errReported (s : State) (u : UnitId) (w : Option CmdWord) :
    (s.setInFlight u w).ErrReported ↔ s.ErrReported := by
  cases u with
  | enc => rfl
  | dec => rfl

section Reports
variable {p : PortState} {err : BitVec 3} {w : CmdWord} {u : UnitId} {s t : State}

theorem PortState.reports_zero (p : PortState) : p.Reports 0 := fun h => absurd rfl h

theorem PortState.Reports.record (h : p.Reports err) (out : List Byte) (r : Response) :
    (p.record out r).Reports err := by
  intro h0
  obtain ⟨q, hq, he⟩ := h h0
  exact ⟨q, PortState.record_responses .. ▸ List.mem_append_left _ hq, he⟩

/-- What `raise` leaves in `err` is the error answered, or the first one, answered before (rule R203). -/
theorem PortState.Reports.record_raise (h : p.Reports err) (out : List Byte) {r : Response} (hr : r.isError = true) :
    (p.record out r).Reports (keepFirst err r) := by
  unfold keepFirst
  split
  case isTrue => exact fun _ => ⟨r, by simp, hr, rfl⟩
  case isFalse => exact h.record out r

theorem EncAnswer.reports {e : EncState} {x : Done EncState} (hx : EncAnswer w e x) (h : p.Reports e.err) :
    (p.record x.out x.resp).Reports x.st.err := by
  cases hx with
  | raised _ => exact h.record_raise [] rfl
  | unraised _ herr =>
    obtain hk | h0 := herr
    · exact hk ▸ h.record x.out x.resp
    · exact h0 ▸ PortState.reports_zero _

theorem DecAnswer.reports {d : DecState} {x : Done DecState} (hx : DecAnswer w d x) (h : p.Reports d.err) :
    (p.record x.out x.resp).Reports x.st.err := by
  cases hx with
  | raised he _ => exact h.record_raise [] he
  | unraised _ herr =>
    obtain hk | h0 := herr
    · exact hk ▸ h.record x.out x.resp
    · exact h0 ▸ PortState.reports_zero _

theorem dispatchWord_errReported (h : dispatchWord u w s = .next t) (hs : s.ErrReported) : t.ErrReported := by
  rw [State.errReported_iff] at hs ⊢
  obtain ⟨he, hd⟩ := hs
  cases u with
  | enc =>
    obtain ⟨x, hx, rfl⟩ := dispatchWord_encAnswer h
    exact ⟨hx.reports he, hd⟩
  | dec =>
    obtain ⟨x, hx, rfl⟩ := dispatchWord_decAnswer h
    exact ⟨he, hx.reports hd⟩

end Reports

/-- Settles O48: of the host's moves only collecting writes `err` or a response, and reset clears `err`. -/
theorem stepKeepsErrorsReported : Obligations.StepKeepsErrorsReported := by
  intro s t hs h
  obtain ⟨-, ⟨-, rfl⟩ | ⟨rest, hm⟩⟩ := step_cases h
  · exact hs
  · obtain ⟨u, w, -, -, rfl⟩ | ⟨u, w, -, -, hw⟩ | ⟨u, -, rfl⟩ | ⟨-, -, -, rfl⟩ := hm
    · exact (State.setInFlight_errReported _ u _).mpr hs
    · exact dispatchWord_errReported hw ((State.setInFlight_errReported _ u _).mpr hs)
    · exact hs
    · exact ⟨PortState.reports_zero _, PortState.reports_zero _⟩

end Sys2Proof.Machine

/-! PROOFS. The statements on reset and on orders of commands (70_reset_and_hazards): the reset event, a second
`ENC.CLOSE`, the end of a frame on DEC, and the states the host can bring about from reset. -/

namespace Sys2Proof.Machine

/-! ### The reset event (rule R230, rule R231) -/

section ResetEvent
variable {s t : State} {rest : List HostMove}

theorem State.resetMove_free (he : s.encPort.inFlight = none) (hd : s.decPort.inFlight = none) :
    s.resetMove = .next s.resetBlock := if_pos ⟨he, hd⟩

theorem State.resetMove_busy (h : s.encPort.inFlight ≠ none ∨ s.decPort.inFlight ≠ none) :
    s.resetMove = .refused .resetInProgress := if_neg (not_and_or.mpr h)

theorem State.resetMove_next (h : s.resetMove = .next t) : t = s.resetBlock := by
  unfold State.resetMove at h
  split at h
  case isTrue => exact (Host.Outcome.next.inj h).symm
  case isFalse => cases h

/-- With the invariants met and reset the host's next move, the step is that move. -/
theorem step_of_reset (h : s.Inv) (hm : s.host = .reset :: rest) :
    step s = State.resetMove { s with host := rest } := step_of_host h hm

theorem step_reset_next (hm : s.host = .reset :: rest) (h : step s = .next t) :
    t = State.resetBlock { s with host := rest } := by
  obtain ⟨hi, -⟩ := step_cases h
  exact State.resetMove_next ((step_of_reset hi hm).symm.trans h)

end ResetEvent

theorem EncState.reset_status : EncState.reset.status = 0x00010000 := by decide

theorem DecState.reset_status : DecState.reset.status = 0x00FF0000 := by decide

/-- Settles O16: with both ports free the step is `resetBlock`, whose units and ports are those of `State.reset`. -/
theorem resetEventRestartsBlock : Obligations.ResetEventRestartsBlock := by
  intro s rest hi hm he hd
  refine ⟨State.resetBlock { s with host := rest }, (step_of_reset hi hm).trans (State.resetMove_free he hd), ?_⟩
  obtain ⟨hs, hr, ha, hcode, hn, hbuf, herr, hdec⟩ := resetValues
  obtain ⟨hds, hdr, hdcode, hk, hderr⟩ := hdec
  exact ⟨hs, hr, ha, hcode, hn, hbuf, herr, hds, hdr, hdcode, hk, hderr, EncState.reset_status,
    DecState.reset_status, rfl, rfl, rfl, rfl, rfl, rfl, rfl, rfl, rfl⟩

/-- The word 0x2000 on ENC's port leaves ENC as reset does (rule R231). -/
theorem dispatchWord_enc_defaultConfig (s : State) :
    dispatchWord .enc 0x2000 s = .next { s with enc := EncState.reset, encPort := s.encPort.record [] .ok } :=
  (dispatchWord_encode (.encConfig 0x00 false false) s).trans (exec_encConfig s 0x00 false false)

/-- The word 0x2000 on DEC's port leaves DEC as reset does (rule R231). -/
theorem dispatchWord_dec_defaultConfig (s : State) :
    dispatchWord .dec 0x2000 s = .next { s with dec := DecState.reset, decPort := s.decPort.record [] .ok } :=
  (dispatchWord_encode (.decConfig 0x00 false) s).trans (exec_decConfig s 0x00 false)

/-- Settles O17: reset looks at both ports; where it is not refused, each unit is left as its own CONFIG 0x2000 leaves
it. -/
theorem resetOnlyBetweenCommands : Obligations.ResetOnlyBetweenCommands := by
  refine ⟨fun s rest hi hm hbusy => ?_, fun s t rest hm h => ?_⟩
  · exact (step_of_reset hi hm).trans (State.resetMove_busy hbusy)
  · obtain rfl := step_reset_next hm h
    exact ⟨dispatchWord_enc_defaultConfig s, dispatchWord_dec_defaultConfig s⟩

/-! ### A second close on ENC (rule R235) -/

/-- On an empty group CLOSE emits the empty frame and leaves the unit as it is. -/
theorem EncState.emptied_close (e : EncState) :
    e.emptied.close = .ok ⟨e.emptied, freshCode e.cfgS :: e.terminator, .ok⟩ :=
  EncState.inv_close_ok e.emptied_inv

/-- `ENC.CLOSE` on a running unit with an empty group (rule R235). -/
theorem exec_encClose_of_emptied {s : State} (h : s.enc.emptied = s.enc) (herr : s.enc.err = 0) :
    exec .encClose s =
      .next { s with encPort := s.encPort.record (freshCode s.enc.cfgS :: s.enc.terminator) .ok } := by
  have hclose := s.enc.emptied_close
  rw [h] at hclose
  exact exec_encClose_running herr hclose

/-- Settles O26: the first close leaves an empty group, and the second closes that. -/
theorem secondCloseEmitsEmptyFrame : Obligations.SecondCloseEmitsEmptyFrame := by
  intro s t hi herr h
  rw [exec_encClose_running herr (EncState.inv_close_ok hi)] at h
  cases h
  exact exec_encClose_of_emptied rfl herr

/-! ### The end of a frame on DEC (rule R236, rule R240) -/

/-- Settles O35: either error is answered only for its cause, and the causes of both ask that `cfg_r` be off. -/
theorem reducedModeCannotReportTruncation : Obligations.ReducedModeCannotReportTruncation := by
  intro i s t hr hi h
  have hu : i.unit = .dec := by obtain rfl | ⟨c, rfl⟩ := hi <;> rfl
  rw [← dispatchWord_encode, hu] at h
  refine ⟨fun hl => ?_, fun hl => ?_⟩
  · obtain ⟨-, -, hplain, -⟩ := (dispatchWord_dec_lastResponse_iff h rfl).mp hl
    exact Bool.false_ne_true (hplain.symm.trans hr)
  · obtain ⟨-, -, hplain, -⟩ := (dispatchWord_dec_lastResponse_iff h rfl).mp hl
    exact Bool.false_ne_true (hplain.symm.trans hr)

section EndOfFrame
variable {d : DecState} {c : Byte} {x : Done DecState}

theorem DecState.terminatorCase_endOfFrame (h : d.terminatorCase.resp = .endOfFrame) :
    d.terminatorCase.st = d.initFrame := by
  rw [d.terminatorCase_eq] at h ⊢
  split_ifs at h ⊢ with hk
  · exact (DecState.initFrame_idle hk).symm
  · rfl
  · cases h

/-- Only the terminator answers `END_OF_FRAME`, and it leaves the unit at frame start (rule R132). -/
theorem DecState.byte_endOfFrame (h : d.byte c = .ok x) (hx : x.resp = .endOfFrame) : x.st = d.initFrame := by
  obtain ⟨-, hb⟩ | ⟨-, -, hb⟩ | ⟨-, -, -, -, hb⟩ | ⟨-, -, -, k, -, hb⟩ := d.byte_cases c
  all_goals rw [hb] at h; cases h
  · exact DecState.terminatorCase_endOfFrame hx
  · cases hx
  · cases hx
  · cases hx

/-- A halted unit answers `ERR_HALTED`, so `END_OF_FRAME` comes from a running one (rule R209). -/
theorem DecState.unlessHalted_endOfFrame {r : Except Fault (Done DecState)} (h : d.unlessHalted r = .ok x)
    (hx : x.resp = .endOfFrame) : d.err = 0 ∧ r = .ok x := by
  by_cases herr : d.err = 0
  · exact ⟨herr, (DecState.unlessHalted_running herr r).symm.trans h⟩
  · rw [DecState.unlessHalted_halted herr] at h
    cases h
    cases hx

/-- At frame start CLOSE emits nothing and leaves the unit as it is (rule R135). -/
theorem DecState.initFrame_close (d : DecState) : d.initFrame.close = ⟨d.initFrame, [], .ok⟩ :=
  DecState.close_idle rfl

end EndOfFrame

/-- `DEC.CLOSE` on a running unit at frame start (rule R236). -/
theorem exec_decClose_of_initFrame {s : State} (h : s.dec.initFrame = s.dec) (herr : s.dec.err = 0) :
    exec .decClose s = .next { s with decPort := s.decPort.record [] .ok } := by
  have hclose := s.dec.initFrame_close
  rw [h] at hclose
  exact exec_decClose_running herr hclose

/-- Settles O36: `END_OF_FRAME` leaves a running unit at frame start, where a close has nothing to do. -/
theorem closeAfterEndOfFrameDoesNothing : Obligations.CloseAfterEndOfFrameDoesNothing := by
  intro s t c h hl
  obtain ⟨x, hx, rfl⟩ := finishDec_next h
  have hend : x.resp = .endOfFrame := by simpa using hl
  obtain ⟨herr, hb⟩ := DecState.unlessHalted_endOfFrame hx hend
  rw [DecState.byte_endOfFrame hb hend]
  exact exec_decClose_of_initFrame rfl herr

/-! ### The states the host can bring about from reset (rule R246) -/

/-- Reset is a good state and every step keeps it one, so every reachable state is. -/
theorem Reachable.good {s : State} (h : Reachable s) : s.Good := by
  induction h with
  | start host =>
    obtain ⟨hgood, -⟩ := resetIsGood
    exact hgood
  | step _ hst ih => exact stepKeepsGood _ _ ih hst

/-- Settles O46: a reachable state is good, and no step from a good state is a fault. -/
theorem reachableStatesNeverFault : Obligations.ReachableStatesNeverFault :=
  fun s h => ⟨h.good, goodStepNeverFaults s h.good⟩

end Sys2Proof.Machine
